-- ==== Sys2Proof/Word.lean ====
section
/-! DEFINITION. The word types of the Crypota cipher core: what the spec numbers as bits is a bit vector, bit 0 the
least significant (00_scope R7); a byte string is a list of bytes, byte 0 first (00_scope R8). -/

namespace Sys2Proof

/-- One byte. -/
abbrev Byte := BitVec 8

/-- A host-bus word, a command word, a 32-bit register (00_scope R6: HOST_WORD, CMD_WORD). -/
abbrev Word := BitVec 32

/-- A host byte address (20_memory R51). -/
abbrev Addr := BitVec 12

/-- A byte string (00_scope R8). -/
abbrev Bytes := List Byte

/-- The number of a buffer register B0 .. B7 (10_state R22). -/
abbrev BufReg := Fin 8

end Sys2Proof
end

