-- ==== Sys2Proof/Syntax.lean ====
section
/-! DEFINITION. The nineteen commands of the opcode map (30_encoding R84), with the operands of 30_encoding R81, R83. -/

namespace Sys2Proof

/-- A command. Register operands stand in the order RD, RS1, RS2 of the command word; a round index is the whole
16-bit IMM (30_encoding R83: ROUND = zext_16(IMM)). -/
inductive Instr where
  /-- XOR Bd, Bs1, Bs2 (40_kernel R102) -/
  | xor (rd rs1 rs2 : BufReg)
  /-- SPLIT Bl, Br, Bs (40_kernel R104): `rd` the left destination, `rs2` the right destination, `rs1` the source -/
  | split (rd rs1 rs2 : BufReg)
  /-- JOIN Bd, Bs1, Bs2 (40_kernel R105) -/
  | join (rd rs1 rs2 : BufReg)
  /-- PERM Bd, Bs (40_kernel R108) -/
  | perm (rd rs1 : BufReg)
  /-- ROTL Bd, Bs, amount, width (40_kernel R113) -/
  | rotl (rd rs1 : BufReg) (amount width : BitVec 8)
  /-- DES_KEY Bs (42_des R184) -/
  | desKey (rs1 : BufReg)
  /-- DES_ENC Bd, Bs (42_des R185) -/
  | desEnc (rd rs1 : BufReg)
  /-- DES_DEC Bd, Bs (42_des R186) -/
  | desDec (rd rs1 : BufReg)
  /-- DES_RK Bd, i (42_des R187) -/
  | desRk (rd : BufReg) (round : BitVec 16)
  /-- DES_F Bd, Bs, i (42_des R188) -/
  | desF (rd rs1 : BufReg) (round : BitVec 16)
  /-- DES_RND Bd, Bs, i (42_des R189) -/
  | desRnd (rd rs1 : BufReg) (round : BitVec 16)
  /-- DES_SBOX Bd, Bs (42_des R190) -/
  | desSbox (rd rs1 : BufReg)
  /-- DEAL_KEY Bs (43_deal R227) -/
  | dealKey (rs1 : BufReg)
  /-- DEAL_ENC Bd, Bs (43_deal R228) -/
  | dealEnc (rd rs1 : BufReg)
  /-- DEAL_DEC Bd, Bs (43_deal R229) -/
  | dealDec (rd rs1 : BufReg)
  /-- DEAL_RK Bd, i (43_deal R230) -/
  | dealRk (rd : BufReg) (round : BitVec 16)
  /-- DEAL_F Bd, Bs, i (43_deal R231) -/
  | dealF (rd rs1 : BufReg) (round : BitVec 16)
  /-- DEAL_RND Bd, Bs, i (43_deal R232) -/
  | dealRnd (rd rs1 : BufReg) (round : BitVec 16)
  /-- CLRERR (44_control R250) -/
  | clrErr
deriving DecidableEq, Repr

end Sys2Proof
end

