-- ==== Sys2Proof/WellFormed.lean ====
section
/-! DEFINITION. Which commands have a legal encoding: the conditions that the operand types do not already say. -/

namespace Sys2Proof

/-- A DES round index is 1 .. 16 (30_encoding R83). -/
def desRoundOk (round : BitVec 16) : Bool := 1 ≤ round.toNat && round.toNat ≤ 16

/-- A DEAL round index is 1 .. 6 (30_encoding R83). -/
def dealRoundOk (round : BitVec 16) : Bool := 1 ≤ round.toNat && round.toNat ≤ 6

/-- The command is legal: 30_encoding R85 (c), the round index in its limits, and (d), no SPLIT with RD = RS2. Its
other two clauses are about words that are no `Instr`. -/
def Instr.wf : Instr → Bool
  | .split rd _ rs2 => rd ≠ rs2
  | .desRk _ round | .desF _ _ round | .desRnd _ _ round => desRoundOk round
  | .dealRk _ round | .dealF _ _ round | .dealRnd _ _ round => dealRoundOk round
  | .xor .. | .join .. | .perm .. | .rotl .. | .desKey .. | .desEnc .. | .desDec .. | .desSbox .. | .dealKey ..
  | .dealEnc .. | .dealDec .. | .clrErr => true

end Sys2Proof
end

