-- ==== Sys2Proof/Decode.lean ====
section
/-! DEFINITION. The decoder of 30_encoding R86, total on every 32-bit word and refusing by name, and the encoder
written from the same opcode map (30_encoding R81, R84). -/

namespace Sys2Proof

/-- Why a command word is illegal: the four clauses of 30_encoding R85. All of them raise ILLEGAL_COMMAND. -/
inductive IllegalWord where
  /-- (a) the OP value is reserved -/
  | reservedOpcode
  /-- (b) a must-be-zero field is not zero -/
  | mustBeZero
  /-- (c) the round index is outside its limits -/
  | roundIndex
  /-- (d) SPLIT with RD = RS2 -/
  | splitSameDest
deriving DecidableEq, Repr

/-- The rows of the opcode map (30_encoding R84), one name each. -/
inductive Op where
  | xor | split | join | perm | rotl
  | desKey | desEnc | desDec | desRk | desF | desRnd | desSbox
  | dealKey | dealEnc | dealDec | dealRk | dealF | dealRnd
  | clrErr
deriving DecidableEq, Repr

/-- The OP column of 30_encoding R84. -/
def Op.code : Op → BitVec 6
  | .xor => 0x01 | .split => 0x02 | .join => 0x03 | .perm => 0x04 | .rotl => 0x05
  | .desKey => 0x10 | .desEnc => 0x11 | .desDec => 0x12 | .desRk => 0x13 | .desF => 0x14 | .desRnd => 0x15
  | .desSbox => 0x16
  | .dealKey => 0x20 | .dealEnc => 0x21 | .dealDec => 0x22 | .dealRk => 0x23 | .dealF => 0x24 | .dealRnd => 0x25
  | .clrErr => 0x3F

/-- The row of 30_encoding R84 with a given OP; `none` for a reserved OP (R85 (a)). -/
def opOfCode (code : BitVec 6) : Option Op :=
  match code.toNat with
  | 0x01 => some .xor | 0x02 => some .split | 0x03 => some .join | 0x04 => some .perm | 0x05 => some .rotl
  | 0x10 => some .desKey | 0x11 => some .desEnc | 0x12 => some .desDec | 0x13 => some .desRk | 0x14 => some .desF
  | 0x15 => some .desRnd | 0x16 => some .desSbox
  | 0x20 => some .dealKey | 0x21 => some .dealEnc | 0x22 => some .dealDec | 0x23 => some .dealRk
  | 0x24 => some .dealF | 0x25 => some .dealRnd
  | 0x3F => some .clrErr
  | _ => none

/-- The match column of 30_encoding R84. -/
def Op.pattern : Op → Word
  | .xor => 0x04000000 | .split => 0x08000000 | .join => 0x0C000000 | .perm => 0x10000000 | .rotl => 0x14000000
  | .desKey => 0x40000000 | .desEnc => 0x44000000 | .desDec => 0x48000000 | .desRk => 0x4C000000
  | .desF => 0x50000000 | .desRnd => 0x54000000 | .desSbox => 0x58000000
  | .dealKey => 0x80000000 | .dealEnc => 0x84000000 | .dealDec => 0x88000000 | .dealRk => 0x8C000000
  | .dealF => 0x90000000 | .dealRnd => 0x94000000
  | .clrErr => 0xFC000000

/-- The mask column of 30_encoding R84: OP and every must-be-zero bit of the row (R82, R83). -/
def Op.mask : Op → Word
  | .xor | .split | .join => 0xFC01FFFF
  | .perm | .desEnc | .desDec | .desSbox | .dealEnc | .dealDec => 0xFC0FFFFF
  | .rotl => 0xFC0F0000
  | .desKey | .dealKey => 0xFF8FFFFF
  | .desRk => 0xFC7FFFE0
  | .desF | .desRnd => 0xFC0FFFE0
  | .dealRk => 0xFC7FFFF8
  | .dealF | .dealRnd => 0xFC0FFFF8
  | .clrErr => 0xFFFFFFFF

/-- The OP field (30_encoding R81). -/
def opField (w : Word) : BitVec 6 := w.extractLsb' 26 6

/-- The RD field (30_encoding R81). -/
def rdField (w : Word) : BufReg := (w.extractLsb' 23 3).toFin

/-- The RS1 field (30_encoding R81). -/
def rs1Field (w : Word) : BufReg := (w.extractLsb' 20 3).toFin

/-- The RS2 field (30_encoding R81). -/
def rs2Field (w : Word) : BufReg := (w.extractLsb' 17 3).toFin

/-- The IMM field (30_encoding R81). -/
def immField (w : Word) : BitVec 16 := w.extractLsb' 0 16

/-- The AMOUNT half of IMM (30_encoding R83). -/
def amountField (w : Word) : BitVec 8 := w.extractLsb' 8 8

/-- The WIDTH half of IMM (30_encoding R83). -/
def widthField (w : Word) : BitVec 8 := w.extractLsb' 0 8

/-- The command of a row with the operands its format takes from the word (30_encoding R82, R87). -/
def Op.operands (op : Op) (w : Word) : Instr :=
  match op with
  | .xor => .xor (rdField w) (rs1Field w) (rs2Field w)
  | .split => .split (rdField w) (rs1Field w) (rs2Field w)
  | .join => .join (rdField w) (rs1Field w) (rs2Field w)
  | .perm => .perm (rdField w) (rs1Field w)
  | .rotl => .rotl (rdField w) (rs1Field w) (amountField w) (widthField w)
  | .desKey => .desKey (rs1Field w)
  | .desEnc => .desEnc (rdField w) (rs1Field w)
  | .desDec => .desDec (rdField w) (rs1Field w)
  | .desRk => .desRk (rdField w) (immField w)
  | .desF => .desF (rdField w) (rs1Field w) (immField w)
  | .desRnd => .desRnd (rdField w) (rs1Field w) (immField w)
  | .desSbox => .desSbox (rdField w) (rs1Field w)
  | .dealKey => .dealKey (rs1Field w)
  | .dealEnc => .dealEnc (rdField w) (rs1Field w)
  | .dealDec => .dealDec (rdField w) (rs1Field w)
  | .dealRk => .dealRk (rdField w) (immField w)
  | .dealF => .dealF (rdField w) (rs1Field w) (immField w)
  | .dealRnd => .dealRnd (rdField w) (rs1Field w) (immField w)
  | .clrErr => .clrErr

/-- The last three checks of 30_encoding R86, on a word that matches its row. -/
def checkLimits (op : Op) (w : Word) : Except IllegalWord Unit :=
  match op with
  | .desRk | .desF | .desRnd =>
    if 1 ≤ (immField w).toNat ∧ (immField w).toNat ≤ 16 then .ok () else .error .roundIndex
  | .dealRk | .dealF | .dealRnd =>
    if 1 ≤ (immField w).toNat ∧ (immField w).toNat ≤ 6 then .ok () else .error .roundIndex
  | .split => if rdField w = rs2Field w then .error .splitSameDest else .ok ()
  | .xor | .join | .perm | .rotl | .desKey | .desEnc | .desDec | .desSbox | .dealKey | .dealEnc | .dealDec
  | .clrErr => .ok ()

/-- The decoding procedure (30_encoding R86). -/
def decode (w : Word) : Except IllegalWord Instr :=
  match opOfCode (opField w) with
  | none => .error .reservedOpcode
  | some op =>
    if w &&& op.mask = op.pattern then
      match checkLimits op w with
      | .ok () => .ok (op.operands w)
      | .error e => .error e
    else .error .mustBeZero

/-- The command word with these fields, bit 16 zero (30_encoding R81). -/
def fieldsWord (code : BitVec 6) (rd rs1 rs2 : BufReg) (imm : BitVec 16) : Word :=
  code ++ BitVec.ofFin (w := 3) rd ++ BitVec.ofFin (w := 3) rs1 ++ BitVec.ofFin (w := 3) rs2 ++ 0#1 ++ imm

/-- The word of a command (30_encoding R84, R87): every field its format does not use is zero. -/
def encode : Instr → Word
  | .xor rd rs1 rs2 => fieldsWord Op.xor.code rd rs1 rs2 0
  | .split rd rs1 rs2 => fieldsWord Op.split.code rd rs1 rs2 0
  | .join rd rs1 rs2 => fieldsWord Op.join.code rd rs1 rs2 0
  | .perm rd rs1 => fieldsWord Op.perm.code rd rs1 0 0
  | .rotl rd rs1 amount width => fieldsWord Op.rotl.code rd rs1 0 (amount ++ width)
  | .desKey rs1 => fieldsWord Op.desKey.code 0 rs1 0 0
  | .desEnc rd rs1 => fieldsWord Op.desEnc.code rd rs1 0 0
  | .desDec rd rs1 => fieldsWord Op.desDec.code rd rs1 0 0
  | .desRk rd round => fieldsWord Op.desRk.code rd 0 0 round
  | .desF rd rs1 round => fieldsWord Op.desF.code rd rs1 0 round
  | .desRnd rd rs1 round => fieldsWord Op.desRnd.code rd rs1 0 round
  | .desSbox rd rs1 => fieldsWord Op.desSbox.code rd rs1 0 0
  | .dealKey rs1 => fieldsWord Op.dealKey.code 0 rs1 0 0
  | .dealEnc rd rs1 => fieldsWord Op.dealEnc.code rd rs1 0 0
  | .dealDec rd rs1 => fieldsWord Op.dealDec.code rd rs1 0 0
  | .dealRk rd round => fieldsWord Op.dealRk.code rd 0 0 round
  | .dealF rd rs1 round => fieldsWord Op.dealF.code rd rs1 0 round
  | .dealRnd rd rs1 round => fieldsWord Op.dealRnd.code rd rs1 0 round
  | .clrErr => fieldsWord Op.clrErr.code 0 0 0 0

/-- The command word that an opcode-table row's low `nbits` bits stand for: bits from `nbits` up are 0 (log 9). -/
def tableWord (nbits w : Nat) : Word := BitVec.ofNat 32 (w % 2 ^ nbits)

/-- What the decoder reads from a word of the opcode table. There is one command length, 32 bits (30_encoding R80), so
a longer row is refused. -/
def decodeTableWord (nbits w : Nat) : Option Instr :=
  if nbits ≤ 32 then (decode (tableWord nbits w)).toOption else none

end Sys2Proof
end

