-- ==== Sys2Proof/Machine/Bits.lean ====
section
/-! DEFINITION. Byte strings as bit strings and as integers (00_scope R8 to R13). -/

namespace Sys2Proof.Machine

/-- `bitM(b, j)`: bit `j` counted from the most significant bit of the first byte (00_scope R8). -/
def bitM (b : Bytes) (j : Nat) : Bool := (b.getD (j / 8) 0).getLsbD (7 - j % 8)

/-- `bitL(b, j)`: bit `j` counted from the least significant bit of the last byte (00_scope R9). -/
def bitL (b : Bytes) (j : Nat) : Bool := bitM b (8 * b.length - 1 - j)

/-- `val(b)`: the unsigned integer whose big-endian bytes are `b` (00_scope R10). -/
def val (b : Bytes) : Nat := b.foldl (fun acc x => acc * 256 + x.toNat) 0

/-- `bytesBE(v, n)`: the `n` big-endian bytes of `v` (00_scope R10). -/
def bytesBE (v : Nat) : Nat → Bytes
  | 0 => []
  | n + 1 => BitVec.ofNat 8 (v / 256 ^ n) :: bytesBE v n

/-- The integer a bit sequence spells, its first bit the most significant. -/
def natOfBits (s : List Bool) : Nat := s.foldl (fun acc b => 2 * acc + b.toNat) 0

/-- `pack(s)`: the bit sequence in bytes, first bit first, zero bits after the last (00_scope R12). -/
def pack (s : List Bool) : Bytes :=
  (List.range ((s.length + 7) / 8)).map fun i =>
    BitVec.ofNat 8 (natOfBits ((List.range 8).map fun k => s.getD (8 * i + k) false))

/-- `bitsM(b)` of a byte string of `w / 8` bytes as a `w`-bit vector: bit 0 of the sequence is the most significant
(00_scope R12, 42_des R160; log 6). -/
def bitsOf (w : Nat) (b : Bytes) : BitVec w := BitVec.ofNat w (val b)

/-- `pack` of a bit vector whose width is a whole number of bytes (00_scope R12, log 6). -/
def bytesOf {w : Nat} (x : BitVec w) : Bytes := bytesBE x.toNat (w / 8)

/-- A table of 1-based positions applied to a bit sequence, giving `k` bits (00_scope R11). -/
def selectBits {w : Nat} (k : Nat) (table : List Nat) (x : BitVec w) : BitVec k :=
  BitVec.ofNat k (natOfBits (table.map fun p => x.getMsbD (p - 1)))

/-- The host-bus word of four bytes, the first in bits 31 to 24 (20_memory R61, R67). -/
def wordOfBytes (b0 b1 b2 b3 : Byte) : Word := b0 ++ b1 ++ b2 ++ b3

/-- Byte `i` (0 to 3) of a host-bus word, byte 0 in bits 31 to 24 (20_memory R61, R67). -/
def wordByte (v : Word) (i : Nat) : Byte := v.extractLsb' (24 - 8 * i) 8

end Sys2Proof.Machine
end

