-- ==== Sys2Proof/Machine/State.lean ====
section
/-! DEFINITION. Everything the spec gives the machine, as plain data, and its value after reset (10_state R39). -/

namespace Sys2Proof.Machine

/-- A buffer register Bn (10_state R22): 16 data bytes and a 5-bit length. -/
structure Buf where
  /-- DATA_n[0] .. DATA_n[15] -/
  data : Vector Byte 16
  /-- LEN_n, 0 .. 31 -/
  len : BitVec 5
deriving DecidableEq, Repr

/-- A byte memory: (address, byte) pairs, addresses strictly rising, no entry equal to what an unlisted address reads
as (`Memory.wf`, in Ops.lean). -/
abbrev Memory := List Host.Cell

/-- An action of the host (20_memory R50): one bus transaction, or a reset between two transactions (70_reset R290). -/
inductive HostAction where
  /-- `MemRead(addr, 4)`, written `lw` -/
  | read (addr : Addr)
  /-- `MemWrite(addr, 4, v)`, written `sw` -/
  | write (addr : Addr) (v : Word)
  /-- reset, outside the bus -/
  | reset
deriving DecidableEq, Repr

/-- What the bus answers to one transaction (20_memory R52, R53). -/
inductive Reply where
  /-- a read's value -/
  | value (v : Word)
  /-- a write was taken -/
  | ok
  /-- a read or a write was refused -/
  | busError
deriving DecidableEq, Repr

/-- Which DEAL key schedule DEAL_KS this core was built with (43_deal R225, log 4). It is a parameter of the core, no
register: nothing reads or writes it but the key derivation's reading. -/
inductive DealKs where
  /-- the default of 43_deal R224 -/
  | knudsenDefault
  /-- another one, `Config.otherDealKs n` -/
  | other (n : Nat)
deriving DecidableEq, Repr

/-- The errors a command can raise (60_exceptions R261); their numbers are in Flags.lean. -/
inductive ErrorCode where
  | sizeMismatch | malformedTable | illegalCommand | keyNotSet
deriving DecidableEq, Repr

/-- The state of the core, then the model's own three fields (log 1, log 2, log 4). -/
structure State where
  /-- B0 .. B7 (10_state R22) -/
  bufs : Vector Buf 8
  /-- table RAM, TBL[0x000 .. 0x0FF] (10_state R27) -/
  tbl : Memory
  /-- DKV, DES key valid (10_state R29) -/
  dkv : Bool
  /-- DKS[1 .. 16] at indices 0 .. 15 (10_state R30); position p of a round key is its p-th most significant bit -/
  dks : Vector (BitVec 48) 16
  /-- EKV, DEAL key valid (10_state R31) -/
  ekv : Bool
  /-- EKS[1 .. 6] at indices 0 .. 5, byte 0 of a round key the most significant (10_state R32, log 6) -/
  eks : Vector (BitVec 64) 6
  /-- CMD (10_state R33) -/
  cmd : Word
  /-- STATUS.ERR (10_state R34) -/
  err : BitVec 4
  /-- STATUS.ANYERR (10_state R34) -/
  anyErr : Bool
  /-- STATUS.BUSERR (10_state R34) -/
  busErr : Bool
  /-- PCFG (10_state R35) -/
  pcfg : Word
  /-- the core's DEAL_KS parameter -/
  dealKs : DealKs
  /-- the host's actions still to come, the next one first (20_memory R50, 70_reset R297) -/
  host : List HostAction
  /-- the bus's answers so far, the oldest first (70_reset R297) -/
  replies : List Reply
deriving DecidableEq, Repr

/-- Faults that stop the machine. The spec has none: a failing command is reported in STATUS and the core goes on
(60_exceptions R260, R269), and so is a refused bus access (60_exceptions R266). No meaning raises one (log 8). -/
inductive Fault where
deriving DecidableEq, Repr

/-- Refusals of the model. -/
inductive Refusal where
  /-- Raised only by an arm of `exec` that has no meaning yet, and no arm is left so. Safe: the model stops. -/
  | notModelled (mnemonic : String)
deriving DecidableEq, Repr

/-- A buffer register after reset (10_state R39). -/
def Buf.zero : Buf := { data := Vector.replicate 16 0, len := 0 }

/-- The machine right after reset (10_state R39, 70_reset R290). The host has nothing to do yet (70_reset R291). -/
def State.reset : State where
  bufs := Vector.replicate 8 Buf.zero
  tbl := []
  dkv := false
  dks := Vector.replicate 16 0
  ekv := false
  eks := Vector.replicate 6 0
  cmd := 0
  err := 0
  anyErr := false
  busErr := false
  pcfg := 0
  dealKs := .knudsenDefault
  host := []
  replies := []

end Sys2Proof.Machine
end

