-- ==== Sys2Proof/Machine/Flags.lean ====
section
/-! DEFINITION. The flags: the error codes of STATUS.ERR, the STATUS word, and what a failing and a succeeding command
write there (10_state R34, R37; 60_exceptions R261 to R263). -/

namespace Sys2Proof.Machine

/-- The error codes (60_exceptions R261); 0 is NONE. -/
def ErrorCode.toBits : ErrorCode → BitVec 4
  | .sizeMismatch => 1
  | .malformedTable => 2
  | .illegalCommand => 3
  | .keyNotSet => 4

/-- The STATUS word a host read returns (10_state R34): ERR in [3:0], ANYERR in [4], BUSERR in [5], DKV in [8], EKV in
[9], every other bit 0. -/
def State.statusWord (s : State) : Word :=
  0#22 ++ BitVec.ofBool s.ekv ++ BitVec.ofBool s.dkv ++ 0#2 ++ BitVec.ofBool s.busErr ++ BitVec.ofBool s.anyErr ++ s.err

/-- The flags of an aborted command (60_exceptions R262). -/
def State.flagError (s : State) (code : ErrorCode) : State := { s with err := code.toBits, anyErr := true }

/-- The flags of a completed command (60_exceptions R263). -/
def State.flagSuccess (s : State) : State := { s with err := 0 }

/-- The flags CLRERR lowers (44_control R250). -/
def State.clearSticky (s : State) : State := { s with anyErr := false, busErr := false }

/-- The flag of a bus error (20_memory R64). -/
def State.flagBusError (s : State) : State := { s with busErr := true }

end Sys2Proof.Machine
end

