-- ==== Sys2Proof/Machine/Ops.lean ====
section
/-! DEFINITION. The named operations over the state: the table space, the buffer registers, and how a command ends
(abort or completion). -/

namespace Sys2Proof.Machine

/-! ### The table space (10_state R27, R28) -/

/-- A table ROM entry (10_state R28), by table address from 0x100 on. -/
def romEntry (a : Nat) : Byte := BitVec.ofNat 8 (romTables.getD (a - 0x100) 0)

/-- What a table address reads as when nothing is listed for it: 0x00 in table RAM (10_state R39), the fixed contents
in table ROM (10_state R28; DESIGN CHOICE in the form, log 10). -/
def Memory.unlisted (a : Nat) : Byte := if a < 0x100 then 0x00 else romEntry a

/-- The entry listed at an address. -/
def Memory.find : Memory → Nat → Option Byte
  | [], _ => none
  | (k, v) :: m, a => if k = a then some v else Memory.find m a

/-- Table entry `a` (00_scope R14: `TBL[a]`). Table ROM is what the spec fixes, whatever is listed. -/
def Memory.read (m : Memory) (a : Nat) : Byte :=
  if a < 0x100 then (m.find a).getD (Memory.unlisted a) else Memory.unlisted a

/-- Replace what is listed at an address, `none` to list nothing there, in a list with rising addresses. -/
def Memory.put : Memory → Nat → Option Byte → Memory
  | [], a, o => (o.map (a, ·)).toList
  | (k, w) :: m, a, o =>
    if k < a then (k, w) :: Memory.put m a o
    else if k = a then (o.map (a, ·)).toList ++ m
    else (o.map (a, ·)).toList ++ (k, w) :: m

/-- Write table RAM entry `a` (20_memory R62). Table ROM is never written: the bus refuses it before (R62). -/
def Memory.write (m : Memory) (a : Nat) (v : Byte) : Memory :=
  if a < 0x100 then m.put a (if v = Memory.unlisted a then none else some v) else m

/-- The canonical form: addresses strictly rising, all in table RAM, no entry equal to what its address reads as
unlisted. -/
abbrev Memory.wf (m : Memory) : Prop :=
  m.Pairwise (fun x y => x.1 < y.1) ∧ ∀ c ∈ m, c.1 < 0x100 ∧ c.2 ≠ Memory.unlisted c.1

/-! ### The buffer registers (10_state R22 to R24) -/

/-- `DATA_n[0 .. LEN_n - 1]` (10_state R24), the bytes a command reads from a well-formed register. -/
def Buf.bytes (b : Buf) : Bytes := b.data.toList.take b.len.toNat

/-- The register a command write leaves (10_state R24): the bytes, zero beyond them, and their number as length. -/
def Buf.ofBytes (v : Bytes) : Buf := { data := Vector.ofFn fun i => v.getD i 0, len := BitVec.ofNat 5 v.length }

/-- `B[n]` (10_state R23, R24). -/
def State.readBuf (s : State) (n : BufReg) : Except ErrorCode Bytes :=
  if 16 < s.bufs[n].len.toNat then .error .sizeMismatch else .ok s.bufs[n].bytes

/-- `B[n] <- v` (10_state R24), for a `v` of at most 16 bytes. -/
def State.writeBuf (s : State) (n : BufReg) (v : Bytes) : State := { s with bufs := s.bufs.set n (Buf.ofBytes v) }

/-! ### How a command ends -/

/-- A check of a command's pseudocode: `if not p then raise Error(code)`. -/
def check (p : Bool) (code : ErrorCode) : Except ErrorCode Unit := if p then .ok () else .error code

/-- `raise Error(code)`: the one way a command fails. It is aborted with nothing written but STATUS (60_exceptions
R262); the core has no trap, so nothing else is saved and control goes nowhere (60_exceptions R260, R268). -/
def State.abort (s : State) (code : ErrorCode) : Host.Outcome State Fault Refusal := .next (s.flagError code)

/-- A command completes with its writes done (60_exceptions R263). -/
def State.complete (s : State) : Host.Outcome State Fault Refusal := .next s.flagSuccess

/-- A command from its body, which gives the state with the command's own writes, or the error of the first check that
fails (00_scope R15, 60_exceptions R265). -/
def State.finish (s : State) : Except ErrorCode State → Host.Outcome State Fault Refusal
  | .ok t => t.complete
  | .error code => s.abort code

end Sys2Proof.Machine
end

