-- ==== Sys2Proof/Machine/Operands.lean ====
section
/-! DEFINITION. The operand forms of the commands: source registers with the length checks, round indices, the fields
of PCFG. -/

namespace Sys2Proof.Machine

/-- A source register that the command reads with a fixed length: SIZE_MISMATCH for another one (41_feistel R146,
60_exceptions R261). -/
def State.readSized (s : State) (n : BufReg) (len : Nat) : Except ErrorCode Bytes := do
  let b ← s.readBuf n
  check (b.length = len) .sizeMismatch
  return b

/-- A round index 1 .. `rounds` as an index into the schedule; outside its limits the command is illegal (30_encoding
R83, R85 (c); log 7). -/
def roundIndex (rounds : Nat) (round : BitVec 16) : Except ErrorCode (Fin rounds) :=
  if h : 1 ≤ round.toNat ∧ round.toNat ≤ rounds then .ok ⟨round.toNat - 1, by omega⟩ else .error .illegalCommand

/-- The DES round keys, once a key is loaded (10_state R30). -/
def State.desKeys (s : State) : Except ErrorCode (Vector (BitVec 48) 16) :=
  if s.dkv then .ok s.dks else .error .keyNotSet

/-- The DEAL round keys, once a key is loaded (10_state R32). -/
def State.dealKeys (s : State) : Except ErrorCode (Vector (BitVec 64) 6) :=
  if s.ekv then .ok s.eks else .error .keyNotSet

/-- The direction in which PERM numbers its source's bits (40_kernel R106). -/
inductive Direction where
  | msbFirst | lsbFirst
deriving DecidableEq, Repr

/-- `sext_8(PCFG.OFFSET)` (10_state R35). -/
def State.permOffset (s : State) : Int := (s.pcfg.extractLsb' 0 8).toInt

/-- PCFG.TLEN (10_state R35). -/
def State.permLength (s : State) : Nat := (s.pcfg.extractLsb' 8 8).toNat

/-- PCFG.TBASE (10_state R35). -/
def State.permBase (s : State) : Nat := (s.pcfg.extractLsb' 16 10).toNat

/-- PCFG.DIR (10_state R35, 40_kernel R107). -/
def State.permDirection (s : State) : Direction := if s.pcfg.getLsbD 31 then .lsbFirst else .msbFirst

/-- The table PERM selects: `T[i] = TBL[TBASE + i]` for `0 <= i < TLEN` (40_kernel R107). -/
def State.permTable (s : State) : List Nat :=
  (List.range s.permLength).map fun i => (s.tbl.read (s.permBase + i)).toNat

/-- What a PCFG write keeps of the word: the reserved bits [30:26] are dropped (20_memory R59). -/
def pcfgKept (v : Word) : Word := v &&& 0x83FFFFFF

end Sys2Proof.Machine
end

