-- ==== Sys2Proof/Machine/Control.lean ====
section
/-! DEFINITION. The control command (44_control). -/

namespace Sys2Proof.Machine

/-- CLRERR (44_control R250). -/
def execClrErr (s : State) : Host.Outcome State Fault Refusal := s.clearSticky.complete

end Sys2Proof.Machine
end

