-- ==== Sys2Proof/Config.lean ====
section
/-! DEFINITION. What the spec leaves to the implementation: the DEAL key schedule (43_deal R225, log 4). -/

namespace Sys2Proof

/-- DEAL key schedules other than the spec's default, one for each number: a total function from a 16-byte key to six
8-byte round keys (43_deal R225), of which nothing else is known. It has no body, so what is proved for every schedule
number holds of every DEAL_KS. -/
opaque Config.otherDealKs : Nat → BitVec 128 → Vector (BitVec 64) 6

end Sys2Proof
end

