-- ==== Sys2Proof/Machine/Feistel.lean ====
section
/-! DEFINITION. The Feistel network shared by DES and DEAL (41_feistel): a block of `h + h` bits, its first `h` bits the
left half. -/

namespace Sys2Proof.Machine

/-- The left half of a block (41_feistel R141). -/
def leftHalf {h : Nat} (x : BitVec (h + h)) : BitVec h := x.extractLsb' h h

/-- The right half of a block (41_feistel R141). -/
def rightHalf {h : Nat} (x : BitVec (h + h)) : BitVec h := x.extractLsb' 0 h

/-- `FeistelRounds` (41_feistel R140), from the halves `(L_0, R_0)` to `(L_r, R_r)`. -/
def feistelRounds {h : Nat} {κ : Type} (f : BitVec h → κ → BitVec h) : List κ → BitVec h → BitVec h →
    BitVec h × BitVec h
  | [], l, r => (l, r)
  | k :: ks, l, r => feistelRounds f ks r (l ^^^ f r k)

/-- `FeistelEnc` (41_feistel R141): the rounds, then the halves recombined right half first. -/
def feistelEnc {h : Nat} {κ : Type} (f : BitVec h → κ → BitVec h) (ks : List κ) (x : BitVec (h + h)) :
    BitVec (h + h) :=
  match feistelRounds f ks (leftHalf x) (rightHalf x) with
  | (l, r) => r ++ l

/-- `FeistelDec` (41_feistel R142): the same structure with the round keys in reverse order. -/
def feistelDec {h : Nat} {κ : Type} (f : BitVec h → κ → BitVec h) (ks : List κ) (y : BitVec (h + h)) :
    BitVec (h + h) :=
  feistelEnc f ks.reverse y

/-- `FeistelStep` (41_feistel R144): one round with its swap. -/
def feistelStep {h : Nat} {κ : Type} (f : BitVec h → κ → BitVec h) (k : κ) (x : BitVec (h + h)) : BitVec (h + h) :=
  rightHalf x ++ (leftHalf x ^^^ f (rightHalf x) k)

/-- `swap(A ++ B) = B ++ A` (41_feistel R144). -/
def swapHalves {h : Nat} (x : BitVec (h + h)) : BitVec (h + h) := rightHalf x ++ leftHalf x

end Sys2Proof.Machine
end

