-- ==== Sys2Proof/Machine/Des.lean ====
section
/-! DEFINITION. The DES cipher and its commands (42_des). A block, key or round key is a bit vector whose most
significant bit is position 1 (42_des R160). -/

namespace Sys2Proof.Machine

/-! ### Functions (42_des R161 to R181) -/

/-- IP (42_des R161). -/
def desIP (x : BitVec 64) : BitVec 64 := selectBits 64 ipTable x

/-- FP (42_des R162). -/
def desFP (x : BitVec 64) : BitVec 64 := selectBits 64 fpTable x

/-- E (42_des R163). -/
def desE (r : BitVec 32) : BitVec 48 := selectBits 48 eTable r

/-- P (42_des R164). -/
def desP (y : BitVec 32) : BitVec 32 := selectBits 32 pTable y

/-- PC-1 (42_des R165). -/
def desPC1 (key : BitVec 64) : BitVec 56 := selectBits 56 pc1Table key

/-- PC-2 (42_des R166). -/
def desPC2 (cd : BitVec 56) : BitVec 48 := selectBits 48 pc2Table cd

/-- One S-box (42_des R167): row from the first and last bit of the group, column from the middle four. -/
def sboxOut (table : List Nat) (g : BitVec 6) : BitVec 4 :=
  let row := 2 * (g.getMsbD 0).toNat + (g.getMsbD 5).toNat
  let col := (g.extractLsb' 1 4).toNat
  BitVec.ofNat 4 (table.getD (16 * row + col) 0)

/-- Group `G_j` of 48 bits, `G_1` the first six (42_des R180). -/
def desGroup (x : BitVec 48) (j : Nat) : BitVec 6 := x.extractLsb' (48 - 6 * j) 6

/-- The substitution layer S (42_des R180). -/
def desS (x : BitVec 48) : BitVec 32 :=
  sboxOut sbox1 (desGroup x 1) ++ sboxOut sbox2 (desGroup x 2) ++ sboxOut sbox3 (desGroup x 3) ++
  sboxOut sbox4 (desGroup x 4) ++ sboxOut sbox5 (desGroup x 5) ++ sboxOut sbox6 (desGroup x 6) ++
  sboxOut sbox7 (desGroup x 7) ++ sboxOut sbox8 (desGroup x 8)

/-- The round function `f(R, K)` (42_des R179). -/
def desF (r : BitVec 32) (k : BitVec 48) : BitVec 32 := desP (desS (desE r ^^^ k))

/-- The round keys from the halves `C`, `D` on, one for each amount of the rotation schedule (42_des R177). -/
def desScheduleFrom : List Nat → BitVec 28 → BitVec 28 → List (BitVec 48)
  | [], _, _ => []
  | n :: ns, c, d =>
    desPC2 (c.rotateLeft n ++ d.rotateLeft n) :: desScheduleFrom ns (c.rotateLeft n) (d.rotateLeft n)

/-- `KS(key)` as a list (42_des R177). -/
def desSchedule (key : BitVec 64) : List (BitVec 48) :=
  desScheduleFrom desShifts ((desPC1 key).extractLsb' 28 28) ((desPC1 key).extractLsb' 0 28)

/-- `KS(key)` as the register DKS holds it (42_des R177, 10_state R30). -/
def desKS (key : BitVec 64) : Vector (BitVec 48) 16 := Vector.ofFn fun i => (desSchedule key).getD i 0

/-- `DESks(ks, b)` (42_des R181). -/
def desKs (ks : List (BitVec 48)) (b : BitVec 64) : BitVec 64 := desFP (feistelEnc (h := 32) desF ks (desIP b))

/-- `DES_E(key, b)` (42_des R181). -/
def desEncrypt (key b : BitVec 64) : BitVec 64 := desKs (desSchedule key) b

/-- `DES_D(key, b)` (42_des R181). -/
def desDecrypt (key b : BitVec 64) : BitVec 64 := desKs (desSchedule key).reverse b

/-! ### Commands (42_des R184 to R190) -/

/-- DES_KEY (42_des R184). -/
def execDesKey (rs1 : BufReg) (s : State) : Host.Outcome State Fault Refusal :=
  s.finish do
    let key ← s.readSized rs1 8
    return { s with dks := desKS (bitsOf 64 key), dkv := true }

/-- DES_ENC (42_des R185). -/
def execDesEnc (rd rs1 : BufReg) (s : State) : Host.Outcome State Fault Refusal :=
  s.finish do
    let ks ← s.desKeys
    let b ← s.readSized rs1 8
    return s.writeBuf rd (bytesOf (desKs ks.toList (bitsOf 64 b)))

/-- DES_DEC (42_des R186). -/
def execDesDec (rd rs1 : BufReg) (s : State) : Host.Outcome State Fault Refusal :=
  s.finish do
    let ks ← s.desKeys
    let b ← s.readSized rs1 8
    return s.writeBuf rd (bytesOf (desKs ks.toList.reverse (bitsOf 64 b)))

/-- DES_RK (42_des R187). -/
def execDesRk (rd : BufReg) (round : BitVec 16) (s : State) : Host.Outcome State Fault Refusal :=
  s.finish do
    let i ← roundIndex 16 round
    let ks ← s.desKeys
    return s.writeBuf rd (bytesOf ks[i])

/-- DES_F (42_des R188). -/
def execDesF (rd rs1 : BufReg) (round : BitVec 16) (s : State) : Host.Outcome State Fault Refusal :=
  s.finish do
    let i ← roundIndex 16 round
    let ks ← s.desKeys
    let r ← s.readSized rs1 4
    return s.writeBuf rd (bytesOf (desF (bitsOf 32 r) ks[i]))

/-- DES_RND (42_des R189). -/
def execDesRnd (rd rs1 : BufReg) (round : BitVec 16) (s : State) : Host.Outcome State Fault Refusal :=
  s.finish do
    let i ← roundIndex 16 round
    let ks ← s.desKeys
    let x ← s.readSized rs1 8
    return s.writeBuf rd (bytesOf (w := 64) (feistelStep (h := 32) desF ks[i] (bitsOf 64 x)))

/-- DES_SBOX (42_des R190). -/
def execDesSbox (rd rs1 : BufReg) (s : State) : Host.Outcome State Fault Refusal :=
  s.finish do
    let x ← s.readSized rs1 6
    return s.writeBuf rd (bytesOf (desS (bitsOf 48 x)))

end Sys2Proof.Machine
end

