-- ==== Sys2Proof/Machine/Deal.lean ====
section
/-! DEFINITION. The DEAL cipher and its commands (43_deal). A block or key is a 128-bit vector, byte 0 the most
significant (43_deal R220). DEAL's DES is internal: it touches neither DKV nor DKS (43_deal R226). -/

namespace Sys2Proof.Machine

/-! ### Functions (43_deal R221 to R225) -/

/-- The round function `F_DEAL(R, RK)` (43_deal R221). -/
def dealF (r rk : BitVec 64) : BitVec 64 := desEncrypt rk r

/-- `DEALks(eks, b)` (43_deal R222). -/
def dealBlock (eks : List (BitVec 64)) (b : BitVec 128) : BitVec 128 := feistelEnc (h := 64) dealF eks b

/-- The fixed DES key `KF` of the default schedule (43_deal R224). -/
def dealFixedKey : BitVec 64 := 0x0123456789ABCDEF

/-- `DEAL_KS_default(key)` (43_deal R224), with `c_j = 2 ^ (j - 1)`. -/
def dealKsDefault (key : BitVec 128) : Vector (BitVec 64) 6 :=
  let k1 : BitVec 64 := leftHalf (h := 64) key
  let k2 : BitVec 64 := rightHalf (h := 64) key
  let rk1 := desEncrypt dealFixedKey k1
  let rk2 := desEncrypt dealFixedKey (k2 ^^^ rk1)
  let rk3 := desEncrypt dealFixedKey (k1 ^^^ 1 ^^^ rk2)
  let rk4 := desEncrypt dealFixedKey (k2 ^^^ 2 ^^^ rk3)
  let rk5 := desEncrypt dealFixedKey (k1 ^^^ 4 ^^^ rk4)
  let rk6 := desEncrypt dealFixedKey (k2 ^^^ 8 ^^^ rk5)
  #v[rk1, rk2, rk3, rk4, rk5, rk6]

/-- The key schedule `DEAL_KS` of a core (43_deal R225, log 4). -/
def DealKs.schedule : DealKs → BitVec 128 → Vector (BitVec 64) 6
  | .knudsenDefault => dealKsDefault
  | .other n => Config.otherDealKs n

/-! ### Commands (43_deal R227 to R232) -/

/-- DEAL_KEY (43_deal R227). -/
def execDealKey (rs1 : BufReg) (s : State) : Host.Outcome State Fault Refusal :=
  s.finish do
    let key ← s.readSized rs1 16
    return { s with eks := s.dealKs.schedule (bitsOf 128 key), ekv := true }

/-- DEAL_ENC (43_deal R228). -/
def execDealEnc (rd rs1 : BufReg) (s : State) : Host.Outcome State Fault Refusal :=
  s.finish do
    let ks ← s.dealKeys
    let b ← s.readSized rs1 16
    return s.writeBuf rd (bytesOf (dealBlock ks.toList (bitsOf 128 b)))

/-- DEAL_DEC (43_deal R229). -/
def execDealDec (rd rs1 : BufReg) (s : State) : Host.Outcome State Fault Refusal :=
  s.finish do
    let ks ← s.dealKeys
    let b ← s.readSized rs1 16
    return s.writeBuf rd (bytesOf (dealBlock ks.toList.reverse (bitsOf 128 b)))

/-- DEAL_RK (43_deal R230). -/
def execDealRk (rd : BufReg) (round : BitVec 16) (s : State) : Host.Outcome State Fault Refusal :=
  s.finish do
    let i ← roundIndex 6 round
    let ks ← s.dealKeys
    return s.writeBuf rd (bytesOf ks[i])

/-- DEAL_F (43_deal R231). -/
def execDealF (rd rs1 : BufReg) (round : BitVec 16) (s : State) : Host.Outcome State Fault Refusal :=
  s.finish do
    let i ← roundIndex 6 round
    let ks ← s.dealKeys
    let r ← s.readSized rs1 8
    return s.writeBuf rd (bytesOf (dealF (bitsOf 64 r) ks[i]))

/-- DEAL_RND (43_deal R232). -/
def execDealRnd (rd rs1 : BufReg) (round : BitVec 16) (s : State) : Host.Outcome State Fault Refusal :=
  s.finish do
    let i ← roundIndex 6 round
    let ks ← s.dealKeys
    let x ← s.readSized rs1 16
    return s.writeBuf rd (bytesOf (w := 128) (feistelStep (h := 64) dealF ks[i] (bitsOf 128 x)))

end Sys2Proof.Machine
end

