-- ==== Sys2Proof/Machine/Kernel.lean ====
section
/-! DEFINITION. The bit-permutation, selection, shift, split and XOR kernel (40_kernel). -/

namespace Sys2Proof.Machine

/-- `xorBuf(a, b)`, for byte strings of equal length (40_kernel R101). -/
def xorBuf (a b : Bytes) : Bytes := List.zipWith (· ^^^ ·) a b

/-- `split(b)` (40_kernel R103): two halves of `4n` bits, right-aligned in their bytes when `n` is odd. -/
def splitHalves (b : Bytes) : Bytes × Bytes :=
  let n := b.length
  if n % 2 = 0 then (b.take (n / 2), b.drop (n / 2))
  else (bytesBE (val b / 2 ^ (4 * n)) ((n + 1) / 2), bytesBE (val b % 2 ^ (4 * n)) ((n + 1) / 2))

/-- The bit of the source that a table entry selects, `none` outside the source (40_kernel R106: `a_i`, `s_i`). -/
def selectBit (src : Bytes) (off : Int) (dir : Direction) (entry : Nat) : Option Bool :=
  let a := (entry : Int) + off
  if a < 0 ∨ (8 * src.length : Int) ≤ a then none
  else some (match dir with
    | .msbFirst => bitM src a.toNat
    | .lsbFirst => bitL src a.toNat)

/-- The bits `s_0 .. s_(k-1)` of 40_kernel R106, `none` if some entry is out of range. -/
def permuteBits (src : Bytes) (off : Int) (dir : Direction) : List Nat → Option (List Bool)
  | [] => some []
  | entry :: table =>
    match selectBit src off dir entry, permuteBits src off dir table with
    | some b, some bs => some (b :: bs)
    | _, _ => none

/-- `permute(src, T, off, dir)`, `none` for a malformed table (40_kernel R106). -/
def permute (src : Bytes) (table : List Nat) (off : Int) (dir : Direction) : Option Bytes :=
  (permuteBits src off dir table).map pack

/-- `rotlLow(src, s, w)`, for `1 <= w <= 8n` (40_kernel R112). -/
def rotlLow (src : Bytes) (s w : Nat) : Bytes :=
  let v := val src
  let low := v % 2 ^ w
  let k := s % w
  let rot := (low * 2 ^ k + low / 2 ^ (w - k)) % 2 ^ w
  bytesBE (v - low + rot) src.length

/-- XOR (40_kernel R102). -/
def execXor (rd rs1 rs2 : BufReg) (s : State) : Host.Outcome State Fault Refusal :=
  s.finish do
    let a ← s.readBuf rs1
    let b ← s.readBuf rs2
    check (a.length = b.length) .sizeMismatch
    return s.writeBuf rd (xorBuf a b)

/-- SPLIT (40_kernel R104; equal destinations: log 7): `rd` takes the left half, `rs2` the right half. -/
def execSplit (rd rs1 rs2 : BufReg) (s : State) : Host.Outcome State Fault Refusal :=
  s.finish do
    check (rd ≠ rs2) .illegalCommand
    let b ← s.readBuf rs1
    return (s.writeBuf rd (splitHalves b).1).writeBuf rs2 (splitHalves b).2

/-- JOIN (40_kernel R105). -/
def execJoin (rd rs1 rs2 : BufReg) (s : State) : Host.Outcome State Fault Refusal :=
  s.finish do
    let a ← s.readBuf rs1
    let b ← s.readBuf rs2
    check (a.length = b.length) .sizeMismatch
    check (2 * a.length ≤ 16) .sizeMismatch
    return s.writeBuf rd (a ++ b)

/-- PERM (40_kernel R108). -/
def execPerm (rd rs1 : BufReg) (s : State) : Host.Outcome State Fault Refusal :=
  s.finish do
    let src ← s.readBuf rs1
    check (s.permLength ≤ 128) .sizeMismatch
    check (s.permBase + s.permLength ≤ 1024) .malformedTable
    match permute src s.permTable s.permOffset s.permDirection with
    | none => .error .malformedTable
    | some r => return s.writeBuf rd r

/-- ROTL (40_kernel R113). -/
def execRotl (rd rs1 : BufReg) (amount width : BitVec 8) (s : State) : Host.Outcome State Fault Refusal :=
  s.finish do
    let src ← s.readBuf rs1
    check (width.toNat ≠ 0 && width.toNat ≤ 8 * src.length) .sizeMismatch
    return s.writeBuf rd (rotlLow src amount.toNat width.toNat)

end Sys2Proof.Machine
end

