-- ==== Sys2Proof/Machine/Dispatch.lean ====
section
/-! DEFINITION. The dispatch from a command to its meaning, one arm per constructor of `Instr`. -/

namespace Sys2Proof.Machine

/-- The command rules: what each command does to the state (30_encoding R84, semantics column). -/
def exec (i : Instr) (s : State) : Host.Outcome State Fault Refusal :=
  match i with
  | .xor rd rs1 rs2 => Sys2Proof.Machine.execXor rd rs1 rs2 s
  | .split rd rs1 rs2 => Sys2Proof.Machine.execSplit rd rs1 rs2 s
  | .join rd rs1 rs2 => Sys2Proof.Machine.execJoin rd rs1 rs2 s
  | .perm rd rs1 => Sys2Proof.Machine.execPerm rd rs1 s
  | .rotl rd rs1 amount width => Sys2Proof.Machine.execRotl rd rs1 amount width s
  | .desKey rs1 => Sys2Proof.Machine.execDesKey rs1 s
  | .desEnc rd rs1 => Sys2Proof.Machine.execDesEnc rd rs1 s
  | .desDec rd rs1 => Sys2Proof.Machine.execDesDec rd rs1 s
  | .desRk rd round => Sys2Proof.Machine.execDesRk rd round s
  | .desF rd rs1 round => Sys2Proof.Machine.execDesF rd rs1 round s
  | .desRnd rd rs1 round => Sys2Proof.Machine.execDesRnd rd rs1 round s
  | .desSbox rd rs1 => Sys2Proof.Machine.execDesSbox rd rs1 s
  | .dealKey rs1 => Sys2Proof.Machine.execDealKey rs1 s
  | .dealEnc rd rs1 => Sys2Proof.Machine.execDealEnc rd rs1 s
  | .dealDec rd rs1 => Sys2Proof.Machine.execDealDec rd rs1 s
  | .dealRk rd round => Sys2Proof.Machine.execDealRk rd round s
  | .dealF rd rs1 round => Sys2Proof.Machine.execDealF rd rs1 round s
  | .dealRnd rd rs1 round => Sys2Proof.Machine.execDealRnd rd rs1 round s
  | .clrErr => Sys2Proof.Machine.execClrErr s

end Sys2Proof.Machine
end

