-- ==== Sys2Proof/Machine/Bus.lean ====
section
/-! DEFINITION. The host bus: the address map, reads and writes, and what one host action does (20_memory). -/

namespace Sys2Proof.Machine

/-- A mapped word of the host address space (20_memory R56). -/
inductive HostReg where
  /-- CMD, 0x000 -/
  | cmd
  /-- STATUS, 0x004 -/
  | status
  /-- PCFG, 0x008 -/
  | pcfg
  /-- LEN_n, 0x010 + 4n -/
  | len (n : BufReg)
  /-- bytes 4k .. 4k+3 of DATA_n, 0x100 + 16n + 4k -/
  | data (n : BufReg) (k : Fin 4)
  /-- table entries 4j .. 4j+3, 0x400 + 4j -/
  | tbl (j : Fin 256)
deriving DecidableEq, Repr

/-- The address map (20_memory R56): `none` for a misaligned address (R54) and for a reserved one (R63). -/
def hostReg (addr : Addr) : Option HostReg :=
  let a := addr.toNat
  if a % 4 ≠ 0 then none
  else if a = 0x000 then some .cmd
  else if a = 0x004 then some .status
  else if a = 0x008 then some .pcfg
  else if 0x010 ≤ a ∧ a < 0x030 then some (.len (Fin.ofNat 8 ((a - 0x010) / 4)))
  else if 0x100 ≤ a ∧ a < 0x180 then some (.data (Fin.ofNat 8 ((a - 0x100) / 16)) (Fin.ofNat 4 (a % 16 / 4)))
  else if 0x400 ≤ a ∧ a < 0x800 then some (.tbl (Fin.ofNat 256 ((a - 0x400) / 4)))
  else none

/-- The writable words (20_memory R56): all but STATUS (R58) and the table ROM (R62). -/
def HostReg.writable : HostReg → Bool
  | .status => false
  | .tbl j => j.val < 64
  | .cmd | .pcfg | .len _ | .data _ _ => true

/-- The value a read returns (20_memory R57 to R62). -/
def State.readReg (s : State) : HostReg → Word
  | .cmd => s.cmd
  | .status => s.statusWord
  | .pcfg => pcfgKept s.pcfg
  | .len n => s.bufs[n].len.setWidth 32
  | .data n k =>
    wordOfBytes s.bufs[n].data[4 * k.val] s.bufs[n].data[4 * k.val + 1] s.bufs[n].data[4 * k.val + 2]
      s.bufs[n].data[4 * k.val + 3]
  | .tbl j =>
    wordOfBytes (s.tbl.read (4 * j.val)) (s.tbl.read (4 * j.val + 1)) (s.tbl.read (4 * j.val + 2))
      (s.tbl.read (4 * j.val + 3))

/-- Data word `k` of a buffer register replaced; LEN_n is neither read nor written (20_memory R61). -/
def Buf.setWord (b : Buf) (k : Fin 4) (v : Word) : Buf :=
  { b with data := Vector.ofFn fun i : Fin 16 => if i.val / 4 = k.val then wordByte v (i.val % 4) else b.data[i] }

/-- Four table entries from `a` on replaced (20_memory R62). -/
def Memory.writeWord (m : Memory) (a : Nat) (v : Word) : Memory :=
  (((m.write a (wordByte v 0)).write (a + 1) (wordByte v 1)).write (a + 2) (wordByte v 2)).write (a + 3) (wordByte v 3)

/-- A write that only stores (20_memory R59 to R62); CMD's storing part is R57's, its execution is `runCommand`. -/
def State.storeReg (s : State) (r : HostReg) (v : Word) : State :=
  match r with
  | .cmd => { s with cmd := v }
  | .status => s
  | .pcfg => { s with pcfg := pcfgKept v }
  | .len n => { s with bufs := s.bufs.set n { s.bufs[n] with len := v.extractLsb' 0 5 } }
  | .data n k => { s with bufs := s.bufs.set n (s.bufs[n].setWord k v) }
  | .tbl j => { s with tbl := s.tbl.writeWord (4 * j.val) v }

/-- The bus answers (70_reset R297: the answers are part of a program's result). -/
def State.reply (s : State) (r : Reply) : State := { s with replies := s.replies ++ [r] }

/-- A refused access (20_memory R64): BUSERR, the answer, and nothing else. -/
def State.busError (s : State) : State := s.flagBusError.reply .busError

/-- A command word executes (20_memory R57, 30_encoding R85, R86): an illegal one is aborted. -/
def runCommand (w : Word) (s : State) : Host.Outcome State Fault Refusal :=
  match decode w with
  | .ok i => exec i s
  | .error _ => s.abort .illegalCommand

/-- `MemRead(addr, 4)` (20_memory R52). -/
def memRead (addr : Addr) (s : State) : State :=
  match hostReg addr with
  | none => s.busError
  | some r => s.reply (.value (s.readReg r))

/-- `MemWrite(addr, 4, v)` (20_memory R53). A CMD write answers Ok also when its command fails (20_memory R57). -/
def memWrite (addr : Addr) (v : Word) (s : State) : Host.Outcome State Fault Refusal :=
  match hostReg addr with
  | none => .next s.busError
  | some .cmd => runCommand v ((s.storeReg .cmd v).reply .ok)
  | some r => .next (if r.writable then (s.storeReg r v).reply .ok else s.busError)

/-- Reset (70_reset R290): every register takes its reset value. The core's parameter, the host's further actions and
the answers already given are not the core's state and stay (log 2, log 4). -/
def State.resetCore (s : State) : State :=
  { State.reset with dealKs := s.dealKs, host := s.host, replies := s.replies }

/-- One action of the host (20_memory R50). -/
def hostAction (a : HostAction) (s : State) : Host.Outcome State Fault Refusal :=
  match a with
  | .read addr => .next (memRead addr s)
  | .write addr v => memWrite addr v s
  | .reset => .next s.resetCore

end Sys2Proof.Machine
end

