-- ==== Sys2Proof/Machine/Step.lean ====
section
/-! DEFINITION. One step of the machine: the host's next action, performed to completion (20_memory R50, 70_reset
R292). -/

namespace Sys2Proof.Machine

/-- The host's next action is taken and performed. With none the core is idle and nothing changes (70_reset R291,
log 3). -/
def step (s : State) : Host.Outcome State Fault Refusal :=
  match s.host with
  | [] => .next s
  | a :: rest => hostAction a { s with host := rest }

/-- The host's next action is the CMD write of this command word (log 3, log 9): the core fetches nothing, it executes
the word the host writes to CMD (10_state R21). -/
def State.withFetchWord (s : State) (nbits w : Nat) : State :=
  { s with host := .write 0x000 (tableWord nbits w) :: s.host }

end Sys2Proof.Machine
end

