-- ==== Sys2Proof/Safety.lean ====
section
/-! DEFINITION. The terms claims are stated in: what a register holds, what a command wrote, what an abort leaves, the
invariant of the machine, and the spec's own numbers for command words and bus addresses. -/

namespace Sys2Proof.Machine

/-! ### What a command leaves -/

/-- The buffer register holds exactly the byte string `v`, zero beyond it (10_state R24). -/
structure HoldsBytes (b : Buf) (v : Bytes) : Prop where
  len : b.len.toNat = v.length
  byte : ∀ i : Fin 16, b.data[i] = v.getD i 0

/-- A completed command that wrote `v` to the buffer register `rd`: every other register is as before, ERR is 0, and
nothing else in the state differs (60_exceptions R263). -/
structure WroteBuf (s t : State) (rd : BufReg) (v : Bytes) : Prop where
  holds : HoldsBytes t.bufs[rd] v
  others : ∀ n : BufReg, n ≠ rd → t.bufs[n] = s.bufs[n]
  rest : t = { s with bufs := t.bufs, err := 0 }

/-- What a command that raises the error of this code leaves (60_exceptions R262): ERR and ANYERR, nothing else. -/
def State.aborted (s : State) (code : BitVec 4) : State := { s with err := code, anyErr := true }

/-- The command completes, writes `v` to `rd`, and changes nothing else but ERR, which is 0. -/
def Writes (i : Instr) (s : State) (rd : BufReg) (v : Bytes) : Prop := ∃ t, exec i s = .next t ∧ WroteBuf s t rd v

/-- The command is aborted with this error code (60_exceptions R261). -/
def Fails (i : Instr) (s : State) (code : BitVec 4) : Prop := exec i s = .next (s.aborted code)

/-- The destination registers of a command (10_state R25). -/
def destinations : Instr → List BufReg
  | .xor rd _ _ | .join rd _ _ | .perm rd _ | .rotl rd _ _ _ | .desSbox rd _ | .desEnc rd _ | .desDec rd _
  | .desF rd _ _ | .desRnd rd _ _ | .desRk rd _ | .dealEnc rd _ | .dealDec rd _ | .dealF rd _ _ | .dealRnd rd _ _
  | .dealRk rd _ => [rd]
  | .split rd _ rs2 => [rd, rs2]
  | .desKey _ | .dealKey _ | .clrErr => []

/-- The errors that the table of 60_exceptions R264 allows a legal command. ILLEGAL_COMMAND is there only for words
that are no legal command, and for SPLIT with equal destinations and a round index out of range. -/
def mayRaise : Instr → List (BitVec 4)
  | .xor .. | .join .. | .rotl .. | .desKey .. | .dealKey .. | .desSbox .. => [1]
  | .split .. => [1, 3]
  | .perm .. => [1, 2]
  | .desEnc .. | .desDec .. | .dealEnc .. | .dealDec .. => [4, 1]
  | .desF .. | .desRnd .. | .dealF .. | .dealRnd .. => [3, 4, 1]
  | .desRk .. | .dealRk .. => [3, 4]
  | .clrErr => []

/-! ### The invariant, and a safe run -/

/-- No command has failed and no bus access has been refused since reset or the last CLRERR (10_state R34): what a safe
run leaves. -/
def State.errorFree (s : State) : Prop := s.anyErr = false ∧ s.busErr = false

/-- The invariant of the machine, which every step keeps: the table memory is in canonical form; ERR is a legal code
(10_state R34) and is non-zero only with ANYERR (60_exceptions R262); PCFG's reserved bits are zero (10_state R35); a key
schedule is valid only as the schedule of some key, and zero until then (10_state R29, R31, R39). -/
structure State.Inv (s : State) : Prop where
  tblWf : s.tbl.wf
  errLegal : s.err.toNat ≤ 4
  errSticky : s.err ≠ 0 → s.anyErr = true
  pcfgReserved : s.pcfg &&& 0x7C000000 = 0
  dksDerived : s.dkv = true → ∃ key, s.dks = desKS key
  dksZero : s.dkv = false → s.dks = Vector.replicate 16 0
  eksDerived : s.ekv = true → ∃ key, s.eks = s.dealKs.schedule key
  eksZero : s.ekv = false → s.eks = Vector.replicate 6 0

/-! ### Command words, in the spec's numbers (30_encoding R81 to R85) -/

/-- RD = w[25:23] -/
def rdOf (w : Word) : BufReg := (w.extractLsb' 23 3).toFin

/-- RS1 = w[22:20] -/
def rs1Of (w : Word) : BufReg := (w.extractLsb' 20 3).toFin

/-- RS2 = w[19:17] -/
def rs2Of (w : Word) : BufReg := (w.extractLsb' 17 3).toFin

/-- IMM = w[15:0] -/
def immOf (w : Word) : BitVec 16 := w.extractLsb' 0 16

/-- IMM in 1 .. `rounds`. -/
def roundIn (rounds : Nat) (w : Word) : Prop := 1 ≤ (immOf w).toNat ∧ (immOf w).toNat ≤ rounds

/-- What a row of the opcode map says of every word with its OP: a word that matches the row and its extra condition
runs as the row's command, and any other is aborted as ILLEGAL_COMMAND (30_encoding R84 to R86). -/
def RowRuns (code : BitVec 6) (mask pattern : Word) (legal : Word → Prop) (command : Word → Instr) : Prop :=
  ∀ (w : Word) (s : State), w.extractLsb' 26 6 = code →
    (w &&& mask = pattern → legal w → runCommand w s = exec (command w) s) ∧
    (¬(w &&& mask = pattern ∧ legal w) → runCommand w s = .next (s.aborted 3))

/-- The OP values that are not reserved (30_encoding R84, R85 (a)). -/
def listedOps : List (BitVec 6) :=
  [0x01, 0x02, 0x03, 0x04, 0x05, 0x10, 0x11, 0x12, 0x13, 0x14, 0x15, 0x16, 0x20, 0x21, 0x22, 0x23, 0x24, 0x25, 0x3F]

/-- The must-be-zero mask of the format of an OP (30_encoding R82). -/
def mustBeZeroMask (op : BitVec 6) : Word :=
  if op ∈ [0x01, 0x02, 0x03] then 0x0001FFFF
  else if op ∈ [0x04, 0x11, 0x12, 0x16, 0x21, 0x22] then 0x000FFFFF
  else if op ∈ [0x10, 0x20] then 0x038FFFFF
  else if op ∈ [0x05, 0x14, 0x15, 0x24, 0x25] then 0x000F0000
  else if op ∈ [0x13, 0x23] then 0x007F0000
  else 0x03FFFFFF

/-- A command word is illegal (30_encoding R85, clauses (a) to (d)). -/
def IllegalCommandWord (w : Word) : Prop :=
  let op := w.extractLsb' 26 6
  op ∉ listedOps ∨ w &&& mustBeZeroMask op ≠ 0 ∨
  (op ∈ [0x13, 0x14, 0x15] ∧ ¬roundIn 16 w) ∨ (op ∈ [0x23, 0x24, 0x25] ∧ ¬roundIn 6 w) ∨
  (op = 0x02 ∧ rdOf w = rs2Of w)

/-! ### Bus accesses -/

/-- A host read of this address returns this word and changes nothing (20_memory R52). -/
def ReadsAs (addr : Addr) (value : State → Word) : Prop :=
  ∀ (s : State) (rest : List HostAction), s.host = .read addr :: rest →
    step s = .next { s with host := rest, replies := s.replies ++ [.value (value s)] }

/-- A host write to this address answers Ok and has this effect (20_memory R53). -/
def StoresAs (addr : Addr) (store : State → Word → State) : Prop :=
  ∀ (s : State) (v : Word) (rest : List HostAction), s.host = .write addr v :: rest →
    step s = .next { store s v with host := rest, replies := s.replies ++ [.ok] }

/-- The state after a refused access: BUSERR, the answer, nothing else (20_memory R64). -/
def State.refusedAccess (s : State) (rest : List HostAction) : State :=
  { s with host := rest, busErr := true, replies := s.replies ++ [.busError] }

/-- A host read of this address is a bus error (20_memory R52, R64). -/
def ReadRefused (addr : Addr) : Prop :=
  ∀ (s : State) (rest : List HostAction), s.host = .read addr :: rest → step s = .next (s.refusedAccess rest)

/-- A host write to this address is a bus error (20_memory R53, R64). -/
def WriteRefused (addr : Addr) : Prop :=
  ∀ (s : State) (v : Word) (rest : List HostAction), s.host = .write addr v :: rest →
    step s = .next (s.refusedAccess rest)

/-- An address that no register has: misaligned, or in a reserved range (20_memory R54, R63). -/
def UnmappedAddr (addr : Addr) : Prop :=
  let a := addr.toNat
  a % 4 ≠ 0 ∨ a = 0x00C ∨ (0x030 ≤ a ∧ a ≤ 0x0FC) ∨ (0x180 ≤ a ∧ a ≤ 0x3FC) ∨ (0x800 ≤ a ∧ a ≤ 0xFFC)

end Sys2Proof.Machine
end

