-- ==== Sys2Proof/Certificates/Slice0/Obligations.lean ====
section
/-! DEFINITION. The statements about the machine, each from a rule of the spec or derived from its sections. -/

open Sys2Proof Sys2Proof.Machine

/-! ### Command words -/

/-- Every legal command's word decodes to it, with every operand at every value (30_encoding R81 to R86). -/
def Obligations.DecodeOfEncode : Prop := ∀ i : Instr, i.wf = true → decode (encode i) = .ok i

/-- A word that decodes at all is the one word of a legal command (30_encoding R80 to R86): no bit of it is dropped. -/
def Obligations.EncodeOfDecode : Prop := ∀ (w : Word) (i : Instr), decode w = .ok i → i.wf = true ∧ encode i = w

/-- 30_encoding R85: which words are illegal, and that an illegal one writes nothing but STATUS. -/
def Obligations.IllegalWordsAbort : Prop :=
  ∀ w : Word, (IllegalCommandWord w → ∀ s : State, runCommand w s = .next (s.aborted 3)) ∧
    (¬IllegalCommandWord w → ∃ i, decode w = .ok i)

/-- The encodings that 30_encoding R88 lists as examples, read by the decoder. -/
def Obligations.SampleWordsDecode : Prop :=
  decode 0x05020000 = .ok (.xor 2 0 1) ∧ decode 0x08840000 = .ok (.split 1 0 2) ∧
  decode 0x10800000 = .ok (.perm 1 0) ∧ decode 0x14800108 = .ok (.rotl 1 0 1 8) ∧
  decode 0x40000000 = .ok (.desKey 0) ∧ decode 0x44800000 = .ok (.desEnc 1 0) ∧
  decode 0x4D800010 = .ok (.desRk 3 16) ∧ decode 0x95100006 = .ok (.dealRnd 2 1 6) ∧
  decode 0xFC000000 = .ok .clrErr

/-! ### The step -/

/-- A step whose host action writes a legal command word to CMD is that command, at the state with the word in CMD, the
action taken and Ok answered (the model's host list and answers: log 1, log 2). -/
def Obligations.StepRunsDecodedCommand : Prop :=
  ∀ (s : State) (w : Word) (i : Instr) (rest : List HostAction), s.host = .write 0x000 w :: rest → decode w = .ok i →
    step s = exec i { s with cmd := w, host := rest, replies := s.replies ++ [.ok] }

/-- 20_memory R57: a CMD read returns CMD; a CMD write stores the word, executes it, and answers Ok also when the
command fails. The list of host actions, and that Ok is recorded in the list of answers before the command runs in the
same step, are the model's choice (log 1, log 2). -/
def Obligations.CmdRegister : Prop :=
  ReadsAs 0x000 (fun s => s.cmd) ∧
  ∀ (s : State) (w : Word) (rest : List HostAction), s.host = .write 0x000 w :: rest →
    step s = runCommand w { s with cmd := w, host := rest, replies := s.replies ++ [.ok] } ∧
    ∃ t, step s = .next t ∧ t.cmd = w ∧ t.replies = s.replies ++ [.ok]

/-- No step stops the machine (60_exceptions R260, R266), each takes exactly the host's next action, and an idle core
(70_reset R291) changes nothing (the idle step is the model's choice, log 3). -/
def Obligations.EveryStepCompletes : Prop :=
  (∀ s : State, ∃ t, step s = .next t ∧ t.host = s.host.tail) ∧ ∀ s : State, s.host = [] → step s = .next s

/-- 10_state R39: the reset value of every piece of state. -/
def Obligations.ResetValues : Prop :=
  (∀ (n : BufReg) (i : Fin 16), State.reset.bufs[n].data[i] = 0) ∧ (∀ n : BufReg, State.reset.bufs[n].len = 0) ∧
  State.reset.cmd = 0 ∧ State.reset.err = 0 ∧ State.reset.anyErr = false ∧ State.reset.busErr = false ∧
  State.reset.dkv = false ∧ State.reset.ekv = false ∧ State.reset.statusWord = 0 ∧ State.reset.pcfg = 0 ∧
  (∀ a < 0x100, State.reset.tbl.read a = 0) ∧ (∀ (m : Memory) (a : Nat), 0x100 ≤ a → State.reset.tbl.read a = m.read a) ∧
  (∀ i : Fin 16, State.reset.dks[i] = 0) ∧ ∀ i : Fin 6, State.reset.eks[i] = 0

/-- 70_reset R290: a reset between two transactions gives every register its reset value. That the core's DEAL_KS
parameter, the host's further actions and the answers already given survive it, as no registers of the core, is the
model's choice (log 2, log 4). -/
def Obligations.ResetAction : Prop :=
  ∀ (s : State) (rest : List HostAction), s.host = .reset :: rest →
    step s = .next { State.reset with dealKs := s.dealKs, host := rest, replies := s.replies }

/-- The invariant holds right after reset (its canonical table memory is the model's choice, log 10). -/
def Obligations.InvariantAtReset : Prop := State.reset.Inv

/-- Every step keeps the invariant: the canonical table memory (the model's choice, log 10), a legal ERR that is never
set without ANYERR, PCFG's reserved bits zero, and key schedules that are some key's schedule or zero. -/
def Obligations.StepKeepsInvariant : Prop := ∀ s t : State, s.Inv → step s = .next t → t.Inv

/-! ### Rules of every command -/

/-- 60_exceptions R262: a command that fails changes ERR and ANYERR, and nothing else. -/
def Obligations.AbortChangesOnlyStatus : Prop :=
  ∀ (i : Instr) (s t : State), exec i s = .next t → t.err ≠ 0 → t = { s with err := t.err, anyErr := true }

/-- 60_exceptions R263: a command that completes leaves ERR 0, and ANYERR and BUSERR as they were; CLRERR alone clears
them. -/
def Obligations.SuccessKeepsStickyFlags : Prop :=
  ∀ (i : Instr) (s : State), ∃ t, exec i s = .next t ∧
    (t.err = 0 → i ≠ .clrErr → t.anyErr = s.anyErr ∧ t.busErr = s.busErr) ∧
    (i = .clrErr → t.err = 0 ∧ t.anyErr = false ∧ t.busErr = false)

/-- The frame of every command (10_state R25): a buffer register that is no destination is unchanged, and a destination
gets a length of at most 16 (10_state R23) unless it is unchanged; DKV and DKS change only by DES_KEY, EKV and EKS only
by DEAL_KEY; BUSERR changes only by CLRERR, and so does ANYERR unless the command fails; CMD, PCFG, every table entry
and the model's own fields are unchanged. -/
def Obligations.CommandFrame : Prop :=
  ∀ (i : Instr) (s t : State), exec i s = .next t →
    (∀ n : BufReg, n ∉ destinations i → t.bufs[n] = s.bufs[n]) ∧
    (∀ n : BufReg, t.bufs[n] = s.bufs[n] ∨ t.bufs[n].len.toNat ≤ 16) ∧
    ((∀ r, i ≠ .desKey r) → t.dkv = s.dkv ∧ t.dks = s.dks) ∧
    ((∀ r, i ≠ .dealKey r) → t.ekv = s.ekv ∧ t.eks = s.eks) ∧
    (t.err ≠ 0 → t.anyErr = true) ∧
    (i ≠ .clrErr → t.busErr = s.busErr ∧ (t.err = 0 → t.anyErr = s.anyErr)) ∧
    t.cmd = s.cmd ∧ t.pcfg = s.pcfg ∧ (∀ a, t.tbl.read a = s.tbl.read a) ∧ t.tbl = s.tbl ∧
    t.dealKs = s.dealKs ∧ t.host = s.host ∧ t.replies = s.replies

/-- 43_deal R226: no DEAL command reads or writes DKV or DKS, so it does the same whatever they hold, and no DES command
reads or writes EKV or EKS. -/
def Obligations.KeyStatesAreSeparate : Prop :=
  (∀ (i : Instr) (s : State) (v : Bool) (ks : Vector (BitVec 48) 16),
    (match i with
      | .dealKey _ | .dealEnc _ _ | .dealDec _ _ | .dealRk _ _ | .dealF _ _ _ | .dealRnd _ _ _ => True
      | _ => False) →
    ∃ t, exec i s = .next t ∧ t.dkv = s.dkv ∧ t.dks = s.dks ∧
      exec i { s with dkv := v, dks := ks } = .next { t with dkv := v, dks := ks }) ∧
  ∀ (i : Instr) (s : State) (v : Bool) (ks : Vector (BitVec 64) 6),
    (match i with
      | .desKey _ | .desEnc _ _ | .desDec _ _ | .desRk _ _ | .desF _ _ _ | .desRnd _ _ _ | .desSbox _ _ => True
      | _ => False) →
    ∃ t, exec i s = .next t ∧ t.ekv = s.ekv ∧ t.eks = s.eks ∧
      exec i { s with ekv := v, eks := ks } = .next { t with ekv := v, eks := ks }

/-- Only PERM depends on PCFG and the table space, and no command writes them (10_state R25, 42_des R182). -/
def Obligations.OnlyPermReadsTables : Prop :=
  ∀ (i : Instr) (s : State) (pcfg : Word) (tbl : Memory), (∀ rd rs1, i ≠ .perm rd rs1) →
    ∃ t, exec i s = .next t ∧ exec i { s with pcfg := pcfg, tbl := tbl } = .next { t with pcfg := pcfg, tbl := tbl }

/-- A command ends with ERR 0 or an error that its row of 60_exceptions R264 (derived there) has, and a legal one never
raises ILLEGAL_COMMAND. -/
def Obligations.ErrorsOfEachCommand : Prop :=
  ∀ (i : Instr) (s t : State), exec i s = .next t →
    (t.err = 0 ∨ t.err ∈ mayRaise i) ∧ (i.wf = true → t.err ≠ 3) ∧ (i.wf = false → t.err = 3)

/-! ### The host bus -/

/-- 20_memory R63, with R54: a misaligned or reserved address is a bus error for reads and writes. -/
def Obligations.UnmappedAccessesRefused : Prop :=
  ∀ addr : Addr, UnmappedAddr addr → ReadRefused addr ∧ WriteRefused addr

/-- 20_memory R58, R59, R60 (10_state R34 to R36): STATUS, PCFG and LEN_n on the bus. -/
def Obligations.ControlRegisters : Prop :=
  (ReadsAs 0x004 (fun s => BitVec.ofNat 32 (s.err.toNat + 16 * s.anyErr.toNat + 32 * s.busErr.toNat +
      256 * s.dkv.toNat + 512 * s.ekv.toNat)) ∧ WriteRefused 0x004) ∧
  (ReadsAs 0x008 (fun s => s.pcfg &&& 0x83FFFFFF) ∧
    StoresAs 0x008 (fun s v => { s with pcfg := v &&& 0x83FFFFFF })) ∧
  ∀ n : BufReg,
    ReadsAs (BitVec.ofNat 12 (0x010 + 4 * n.val)) (fun s => BitVec.ofNat 32 s.bufs[n].len.toNat) ∧
    StoresAs (BitVec.ofNat 12 (0x010 + 4 * n.val))
      (fun s v => { s with bufs := s.bufs.set n { s.bufs[n] with len := v.extractLsb' 0 5 } })

/-- 20_memory R61: the data window of a buffer register, big-endian; LEN_n and every other byte are untouched. -/
def Obligations.DataWindow : Prop :=
  ∀ (n : BufReg) (k : Fin 4),
    ReadsAs (BitVec.ofNat 12 (0x100 + 16 * n.val + 4 * k.val)) (fun s =>
      BitVec.ofNat 32 (s.bufs[n].data[4 * k.val].toNat * 2 ^ 24 + s.bufs[n].data[4 * k.val + 1].toNat * 2 ^ 16 +
        s.bufs[n].data[4 * k.val + 2].toNat * 2 ^ 8 + s.bufs[n].data[4 * k.val + 3].toNat)) ∧
    ∀ (s : State) (v : Word) (rest : List HostAction),
      s.host = .write (BitVec.ofNat 12 (0x100 + 16 * n.val + 4 * k.val)) v :: rest →
      ∃ t, step s = .next t ∧
        t = { s with bufs := t.bufs, host := rest, replies := s.replies ++ [.ok] } ∧
        (∀ m : BufReg, m ≠ n → t.bufs[m] = s.bufs[m]) ∧ t.bufs[n].len = s.bufs[n].len ∧
        t.bufs[n].data[4 * k.val] = v.extractLsb' 24 8 ∧ t.bufs[n].data[4 * k.val + 1] = v.extractLsb' 16 8 ∧
        t.bufs[n].data[4 * k.val + 2] = v.extractLsb' 8 8 ∧ t.bufs[n].data[4 * k.val + 3] = v.extractLsb' 0 8 ∧
        ∀ i : Fin 16, i.val / 4 ≠ k.val → t.bufs[n].data[i] = s.bufs[n].data[i]

/-- 20_memory R62: the table window. Every table word reads big-endian; a write to table RAM changes its four entries
and no other, a write to table ROM is a bus error. The canonical form of the table memory, which a write
is given and keeps, is the model's choice (log 10); every step keeps it (`StepKeepsInvariant`). -/
def Obligations.TableWindow : Prop :=
  ∀ j : Fin 256,
    ReadsAs (BitVec.ofNat 12 (0x400 + 4 * j.val)) (fun s =>
      BitVec.ofNat 32 ((s.tbl.read (4 * j.val)).toNat * 2 ^ 24 + (s.tbl.read (4 * j.val + 1)).toNat * 2 ^ 16 +
        (s.tbl.read (4 * j.val + 2)).toNat * 2 ^ 8 + (s.tbl.read (4 * j.val + 3)).toNat)) ∧
    (64 ≤ j.val → WriteRefused (BitVec.ofNat 12 (0x400 + 4 * j.val))) ∧
    (j.val < 64 → ∀ (s : State) (v : Word) (rest : List HostAction), s.tbl.wf →
      s.host = .write (BitVec.ofNat 12 (0x400 + 4 * j.val)) v :: rest →
      ∃ t, step s = .next t ∧ t = { s with tbl := t.tbl, host := rest, replies := s.replies ++ [.ok] } ∧ t.tbl.wf ∧
        ∀ a, t.tbl.read a =
          if a = 4 * j.val then v.extractLsb' 24 8 else if a = 4 * j.val + 1 then v.extractLsb' 16 8
          else if a = 4 * j.val + 2 then v.extractLsb' 8 8 else if a = 4 * j.val + 3 then v.extractLsb' 0 8
          else s.tbl.read a)

/-- 10_state R28: the table ROM, in every state: the six DES tables at their addresses, 0 everywhere else. -/
def Obligations.TableRomContents : Prop :=
  ∀ m : Memory,
    (∀ i < 64, (m.read (0x100 + i)).toNat = ipTable.getD i 0) ∧ (∀ i < 64, (m.read (0x140 + i)).toNat = fpTable.getD i 0) ∧
    (∀ i < 48, (m.read (0x180 + i)).toNat = eTable.getD i 0) ∧ (∀ i < 32, (m.read (0x1B0 + i)).toNat = pTable.getD i 0) ∧
    (∀ i < 56, (m.read (0x1D0 + i)).toNat = pc1Table.getD i 0) ∧
    (∀ i < 48, (m.read (0x208 + i)).toNat = pc2Table.getD i 0) ∧ ∀ a, 0x238 ≤ a → a ≤ 0x3FF → m.read a = 0

/-! ### The kernel's functions (40_kernel) -/

/-- 40_kernel R101: bytewise exclusive-or of equal-length byte strings. -/
def Obligations.XorBufIsBytewise : Prop :=
  ∀ a b : Bytes, a.length = b.length → (xorBuf a b).length = a.length ∧
    ∀ i < a.length, (xorBuf a b).getD i 0 = a.getD i 0 ^^^ b.getD i 0

/-- 40_kernel R103: the two halves of a byte string, byte halves for an even length, right-aligned for an odd one. -/
def Obligations.SplitHalvesOfBytes : Prop :=
  ∀ b : Bytes,
    (b.length % 2 = 0 → (splitHalves b).1.length = b.length / 2 ∧ (splitHalves b).2.length = b.length / 2 ∧
      (splitHalves b).1 ++ (splitHalves b).2 = b) ∧
    (b.length % 2 = 1 → (splitHalves b).1.length = (b.length + 1) / 2 ∧
      (splitHalves b).2.length = (b.length + 1) / 2 ∧ val (splitHalves b).1 = val b / 2 ^ (4 * b.length) ∧
      val (splitHalves b).2 = val b % 2 ^ (4 * b.length))

/-- 40_kernel R106: `permute` selects the bits its table names, packs them first bit first with zero padding, and fails
exactly on an index outside the source. -/
def Obligations.PermuteSelectsBits : Prop :=
  ∀ (src : Bytes) (table : List Nat) (off : Int) (dir : Direction),
    ((∃ x ∈ table, (x : Int) + off < 0 ∨ 8 * (src.length : Int) ≤ (x : Int) + off) → permute src table off dir = none) ∧
    ((∀ x ∈ table, 0 ≤ (x : Int) + off ∧ (x : Int) + off < 8 * (src.length : Int)) →
      ∃ r, permute src table off dir = some r ∧ r.length = (table.length + 7) / 8 ∧
        ∀ j < 8 * r.length, bitM r j =
          if j < table.length then
            (match dir with
              | .msbFirst => bitM src ((table.getD j 0 : Int) + off).toNat
              | .lsbFirst => bitL src ((table.getD j 0 : Int) + off).toNat)
          else false)

/-- 40_kernel R112: the last `w` bits are rotated left by `s mod w`, the bits above them are kept. -/
def Obligations.RotlLowRotatesLowBits : Prop :=
  ∀ (src : Bytes) (s w : Nat), 1 ≤ w → w ≤ 8 * src.length →
    (rotlLow src s w).length = src.length ∧
    ∀ j < 8 * src.length, bitL (rotlLow src s w) j =
      if j < w then bitL src ((j + (w - s % w)) % w) else bitL src j

/-- 40_kernel R114 (derived there from the functions), laws 1 to 3: XOR undoes itself, JOIN undoes SPLIT on an even
length and swaps halves, rotations add up. -/
def Obligations.KernelLaws : Prop :=
  (∀ a b : Bytes, a.length = b.length → xorBuf (xorBuf a b) b = a) ∧
  (∀ a : Bytes, xorBuf a a = List.replicate a.length 0) ∧
  (∀ b : Bytes, b.length % 2 = 0 → (splitHalves b).1 ++ (splitHalves b).2 = b) ∧
  (∀ l r : Bytes, l.length = 4 → r.length = 4 → (splitHalves (l ++ r)).2 ++ (splitHalves (l ++ r)).1 = r ++ l) ∧
  (∀ (b : Bytes) (s1 s2 w : Nat), 1 ≤ w → w ≤ 8 * b.length →
    rotlLow (rotlLow b s1 w) s2 w = rotlLow b (s1 + s2) w ∧ rotlLow b s1 w = rotlLow b (s1 % w) w)

/-- 40_kernel R114 (derived there from the functions), law 4: a permutation of 64 bits is undone by its inverse table;
in particular FP undoes IP. -/
def Obligations.PermuteInverseTable : Prop :=
  (∀ (b : Bytes) (t t' : List Nat), b.length = 8 → t.length = 64 → t'.length = 64 → (∀ i < 64, t.getD i 0 < 64) →
    (∀ i < 64, t'.getD i 0 < 64 ∧ t.getD (t'.getD i 0) 0 = i) →
    ∃ r, permute b t 0 .msbFirst = some r ∧ permute r t' 0 .msbFirst = some b) ∧
  ∀ b : Bytes, b.length = 8 →
    ∃ r, permute b ipTable (-1) .msbFirst = some r ∧ permute r fpTable (-1) .msbFirst = some b

/-! ### The kernel's commands (40_kernel) -/

/-- 40_kernel R102. -/
def Obligations.XorCommand : Prop :=
  RowRuns 0x01 0xFC01FFFF 0x04000000 (fun _ => True) (fun w => .xor (rdOf w) (rs1Of w) (rs2Of w)) ∧
  ∀ (s : State) (rd rs1 rs2 : BufReg),
    if 16 < s.bufs[rs1].len.toNat ∨ 16 < s.bufs[rs2].len.toNat ∨ s.bufs[rs1].len ≠ s.bufs[rs2].len then
      Fails (.xor rd rs1 rs2) s 1
    else Writes (.xor rd rs1 rs2) s rd (xorBuf s.bufs[rs1].bytes s.bufs[rs2].bytes)

/-- 40_kernel R104: `rd` takes the left half, `rs2` the right half, both of the source as it was. -/
def Obligations.SplitCommand : Prop :=
  RowRuns 0x02 0xFC01FFFF 0x08000000 (fun w => rdOf w ≠ rs2Of w) (fun w => .split (rdOf w) (rs1Of w) (rs2Of w)) ∧
  ∀ (s : State) (rd rs1 rs2 : BufReg),
    if rd = rs2 then Fails (.split rd rs1 rs2) s 3
    else if 16 < s.bufs[rs1].len.toNat then Fails (.split rd rs1 rs2) s 1
    else ∃ t, exec (.split rd rs1 rs2) s = .next t ∧
      HoldsBytes t.bufs[rd] (splitHalves s.bufs[rs1].bytes).1 ∧
      HoldsBytes t.bufs[rs2] (splitHalves s.bufs[rs1].bytes).2 ∧
      (∀ n : BufReg, n ≠ rd → n ≠ rs2 → t.bufs[n] = s.bufs[n]) ∧ t = { s with bufs := t.bufs, err := 0 }

/-- 40_kernel R105. -/
def Obligations.JoinCommand : Prop :=
  RowRuns 0x03 0xFC01FFFF 0x0C000000 (fun _ => True) (fun w => .join (rdOf w) (rs1Of w) (rs2Of w)) ∧
  ∀ (s : State) (rd rs1 rs2 : BufReg),
    if 8 < s.bufs[rs1].len.toNat ∨ s.bufs[rs1].len ≠ s.bufs[rs2].len then Fails (.join rd rs1 rs2) s 1
    else Writes (.join rd rs1 rs2) s rd (s.bufs[rs1].bytes ++ s.bufs[rs2].bytes)

/-- 40_kernel R107, R108: PCFG's fields are OFFSET [7:0] signed, TLEN [15:8], TBASE [25:16], DIR [31]; the command
completes exactly when every selected table entry names a bit of the source (R106). -/
def Obligations.PermCommand : Prop :=
  RowRuns 0x04 0xFC0FFFFF 0x10000000 (fun _ => True) (fun w => .perm (rdOf w) (rs1Of w)) ∧
  ∀ (s : State) (rd rs1 : BufReg) (tlen tbase : Nat) (off : Int) (dir : Direction) (table : List Nat),
    tlen = (s.pcfg.extractLsb' 8 8).toNat → tbase = (s.pcfg.extractLsb' 16 10).toNat →
    off = (s.pcfg.extractLsb' 0 8).toInt → dir = (if s.pcfg.getLsbD 31 then .lsbFirst else .msbFirst) →
    table = (List.range tlen).map (fun i => (s.tbl.read (tbase + i)).toNat) →
    if 16 < s.bufs[rs1].len.toNat ∨ 128 < tlen then Fails (.perm rd rs1) s 1
    else if 1024 < tbase + tlen then Fails (.perm rd rs1) s 2
    else if ∃ x ∈ table, (x : Int) + off < 0 ∨ 8 * (s.bufs[rs1].len.toNat : Int) ≤ (x : Int) + off then
      Fails (.perm rd rs1) s 2
    else ∃ r, permute s.bufs[rs1].bytes table off dir = some r ∧ r.length = (tlen + 7) / 8 ∧
      Writes (.perm rd rs1) s rd r

/-- 40_kernel R113. -/
def Obligations.RotlCommand : Prop :=
  RowRuns 0x05 0xFC0F0000 0x14000000 (fun _ => True)
    (fun w => .rotl (rdOf w) (rs1Of w) (w.extractLsb' 8 8) (w.extractLsb' 0 8)) ∧
  ∀ (s : State) (rd rs1 : BufReg) (amount width : BitVec 8),
    if 16 < s.bufs[rs1].len.toNat ∨ width = 0 ∨ 8 * s.bufs[rs1].len.toNat < width.toNat then
      Fails (.rotl rd rs1 amount width) s 1
    else Writes (.rotl rd rs1 amount width) s rd (rotlLow s.bufs[rs1].bytes amount.toNat width.toNat)

/-- 40_kernel R109 (derived there from R106, R107 and 10_state R28): with PCFG selecting a DES table in the ROM, PERM
computes that table. -/
def Obligations.RomPermComputesDesTables : Prop :=
  ∀ (s : State) (rd rs1 : BufReg),
    (s.pcfg = 0x010040FF → s.bufs[rs1].len = 8 →
      Writes (.perm rd rs1) s rd (bytesOf (desIP (bitsOf 64 s.bufs[rs1].bytes)))) ∧
    (s.pcfg = 0x014040FF → s.bufs[rs1].len = 8 →
      Writes (.perm rd rs1) s rd (bytesOf (desFP (bitsOf 64 s.bufs[rs1].bytes)))) ∧
    (s.pcfg = 0x018030FF → s.bufs[rs1].len = 4 →
      Writes (.perm rd rs1) s rd (bytesOf (desE (bitsOf 32 s.bufs[rs1].bytes)))) ∧
    (s.pcfg = 0x01B020FF → s.bufs[rs1].len = 4 →
      Writes (.perm rd rs1) s rd (bytesOf (desP (bitsOf 32 s.bufs[rs1].bytes)))) ∧
    (s.pcfg = 0x01D038FF → s.bufs[rs1].len = 8 →
      Writes (.perm rd rs1) s rd (bytesOf (desPC1 (bitsOf 64 s.bufs[rs1].bytes)))) ∧
    (s.pcfg = 0x020830FF → s.bufs[rs1].len = 7 →
      Writes (.perm rd rs1) s rd (bytesOf (desPC2 (bitsOf 56 s.bufs[rs1].bytes))))

/-! ### The Feistel network (41_feistel) -/

/-- 41_feistel R140: no round leaves the halves, and each further round swaps them and mixes the right one in. -/
def Obligations.FeistelRoundsRecurrence : Prop :=
  ∀ (h : Nat) (κ : Type) (f : BitVec h → κ → BitVec h) (l r : BitVec h),
    feistelRounds f [] l r = (l, r) ∧
    ∀ (ks : List κ) (k : κ), feistelRounds f (ks ++ [k]) l r =
      ((feistelRounds f ks l r).2, (feistelRounds f ks l r).1 ^^^ f (feistelRounds f ks l r).2 k)

/-- 41_feistel R143 (derived there from R140 to R142): decryption inverts encryption, whatever the round function and
the keys. -/
def Obligations.FeistelInverse : Prop :=
  ∀ (h : Nat) (κ : Type) (f : BitVec h → κ → BitVec h) (ks : List κ) (x : BitVec (h + h)),
    feistelDec f ks (feistelEnc f ks x) = x

/-- 41_feistel R144 (derived there from R140 and R141): a step swaps and mixes the halves, and encryption is its steps
followed by one swap. -/
def Obligations.FeistelByRounds : Prop :=
  ∀ (h : Nat) (κ : Type) (f : BitVec h → κ → BitVec h),
    (∀ (k : κ) (l r : BitVec h), feistelStep f k (l ++ r) = r ++ (l ^^^ f r k)) ∧
    (∀ l r : BitVec h, swapHalves (l ++ r) = r ++ l) ∧
    ∀ (ks : List κ) (x : BitVec (h + h)),
      feistelEnc f ks x = swapHalves (ks.foldl (fun y k => feistelStep f k y) x)

/-! ### DES (42_des) -/

/-- 42_des R162: FP's table is the inverse of IP's, and FP undoes IP on every block. -/
def Obligations.FpUndoesIp : Prop :=
  (∀ i, 1 ≤ i → i ≤ 64 → fpTable.getD (ipTable.getD (i - 1) 0 - 1) 0 = i) ∧ ∀ x : BitVec 64, desFP (desIP x) = x

/-- 42_des R167, R180: each 4-bit output is the entry of its table in the row of the group's outer bits and the column
of its inner bits, the groups and the outputs in order. -/
def Obligations.SboxLayerAddressing : Prop :=
  ∀ (x : BitVec 48) (j : Fin 8),
    let g := fun k => (x.getMsbD (6 * j.val + k - 1)).toNat
    ((desS x).extractLsb' (28 - 4 * j.val) 4).toNat =
      ([sbox1, sbox2, sbox3, sbox4, sbox5, sbox6, sbox7, sbox8].getD j.val []).getD
        (16 * (2 * g 1 + g 6) + (8 * g 2 + 4 * g 3 + 2 * g 4 + g 5)) 0

/-- 42_des R177 with R176: round key `i` is PC-2 of the halves of PC-1, each rotated left by the sum of the first `i`
amounts; the sixteen amounts sum to 28. -/
def Obligations.DesKeySchedule : Prop :=
  desShifts = [1, 1, 2, 2, 2, 2, 2, 2, 1, 2, 2, 2, 2, 2, 2, 1] ∧ desShifts.sum = 28 ∧
  ∀ (key : BitVec 64) (i : Fin 16),
    (desKS key)[i] = desPC2
      (((desPC1 key).extractLsb' 28 28).rotateLeft (desShifts.take (i.val + 1)).sum ++
        ((desPC1 key).extractLsb' 0 28).rotateLeft (desShifts.take (i.val + 1)).sum)

/-- 42_des R178 (derived there from R165 and R177): keys that differ only in parity bits (positions 8, 16, .., 64) have
one schedule and encrypt identically, and no key is rejected for its parity. -/
def Obligations.ParityBitsIgnored : Prop :=
  (∀ k k' : BitVec 64, (∀ p, 1 ≤ p → p ≤ 64 → p % 8 ≠ 0 → k.getMsbD (p - 1) = k'.getMsbD (p - 1)) →
    desKS k = desKS k' ∧ ∀ b, desEncrypt k b = desEncrypt k' b) ∧
  ∀ (s : State) (rs1 : BufReg), s.bufs[rs1].len = 8 → ∃ t, exec (.desKey rs1) s = .next t ∧ t.err = 0

/-- 42_des R183: the four known answers. -/
def Obligations.DesKnownAnswers : Prop :=
  desEncrypt 0x0000000000000000 0x0000000000000000 = 0x8CA64DE9C1B123A7 ∧
  desEncrypt 0x0000000000000001 0x0000000000000001 = 0x166B40B44ABA4BD6 ∧
  desEncrypt 0x0000000000000002 0x0000000000000002 = 0x050A9DC3FC0189AC ∧
  desEncrypt 0x0100000000000000 0x0100000000000000 = 0x0D9F279BA5D87260

/-- 42_des R184. -/
def Obligations.DesKeyCommand : Prop :=
  RowRuns 0x10 0xFF8FFFFF 0x40000000 (fun _ => True) (fun w => .desKey (rs1Of w)) ∧
  ∀ (s : State) (rs1 : BufReg),
    if s.bufs[rs1].len ≠ 8 then Fails (.desKey rs1) s 1
    else exec (.desKey rs1) s =
      .next { s with dks := desKS (bitsOf 64 s.bufs[rs1].bytes), dkv := true, err := 0 }

/-- 42_des R185. -/
def Obligations.DesEncCommand : Prop :=
  RowRuns 0x11 0xFC0FFFFF 0x44000000 (fun _ => True) (fun w => .desEnc (rdOf w) (rs1Of w)) ∧
  ∀ (s : State) (rd rs1 : BufReg),
    if s.dkv = false then Fails (.desEnc rd rs1) s 4
    else if s.bufs[rs1].len ≠ 8 then Fails (.desEnc rd rs1) s 1
    else Writes (.desEnc rd rs1) s rd
      (bytesOf (desFP (feistelEnc (h := 32) desF s.dks.toList (desIP (bitsOf 64 s.bufs[rs1].bytes)))))

/-- 42_des R186. -/
def Obligations.DesDecCommand : Prop :=
  RowRuns 0x12 0xFC0FFFFF 0x48000000 (fun _ => True) (fun w => .desDec (rdOf w) (rs1Of w)) ∧
  ∀ (s : State) (rd rs1 : BufReg),
    if s.dkv = false then Fails (.desDec rd rs1) s 4
    else if s.bufs[rs1].len ≠ 8 then Fails (.desDec rd rs1) s 1
    else Writes (.desDec rd rs1) s rd
      (bytesOf (desFP (feistelEnc (h := 32) desF s.dks.toList.reverse (desIP (bitsOf 64 s.bufs[rs1].bytes)))))

/-- 42_des R187. -/
def Obligations.DesRkCommand : Prop :=
  RowRuns 0x13 0xFC7FFFE0 0x4C000000 (roundIn 16) (fun w => .desRk (rdOf w) (immOf w)) ∧
  (∀ (s : State) (rd : BufReg) (round : BitVec 16), ¬(1 ≤ round.toNat ∧ round.toNat ≤ 16) →
    Fails (.desRk rd round) s 3) ∧
  ∀ (s : State) (rd : BufReg) (round : BitVec 16) (i : Fin 16), round.toNat = i.val + 1 →
    if s.dkv = false then Fails (.desRk rd round) s 4 else Writes (.desRk rd round) s rd (bytesOf s.dks[i])

/-- 42_des R188, with R179. -/
def Obligations.DesFCommand : Prop :=
  RowRuns 0x14 0xFC0FFFE0 0x50000000 (roundIn 16) (fun w => .desF (rdOf w) (rs1Of w) (immOf w)) ∧
  (∀ (s : State) (rd rs1 : BufReg) (round : BitVec 16), ¬(1 ≤ round.toNat ∧ round.toNat ≤ 16) →
    Fails (.desF rd rs1 round) s 3) ∧
  ∀ (s : State) (rd rs1 : BufReg) (round : BitVec 16) (i : Fin 16), round.toNat = i.val + 1 →
    if s.dkv = false then Fails (.desF rd rs1 round) s 4
    else if s.bufs[rs1].len ≠ 4 then Fails (.desF rd rs1 round) s 1
    else Writes (.desF rd rs1 round) s rd
      (bytesOf (desP (desS (desE (bitsOf 32 s.bufs[rs1].bytes) ^^^ s.dks[i]))))

/-- 42_des R189: bytes 0 to 3 of the source are L, bytes 4 to 7 are R. -/
def Obligations.DesRndCommand : Prop :=
  RowRuns 0x15 0xFC0FFFE0 0x54000000 (roundIn 16) (fun w => .desRnd (rdOf w) (rs1Of w) (immOf w)) ∧
  (∀ (s : State) (rd rs1 : BufReg) (round : BitVec 16), ¬(1 ≤ round.toNat ∧ round.toNat ≤ 16) →
    Fails (.desRnd rd rs1 round) s 3) ∧
  ∀ (s : State) (rd rs1 : BufReg) (round : BitVec 16) (i : Fin 16), round.toNat = i.val + 1 →
    if s.dkv = false then Fails (.desRnd rd rs1 round) s 4
    else if s.bufs[rs1].len ≠ 8 then Fails (.desRnd rd rs1 round) s 1
    else Writes (.desRnd rd rs1 round) s rd
      (s.bufs[rs1].bytes.drop 4 ++ bytesOf (bitsOf 32 (s.bufs[rs1].bytes.take 4) ^^^
        desF (bitsOf 32 (s.bufs[rs1].bytes.drop 4)) s.dks[i]))

/-- 42_des R190. -/
def Obligations.DesSboxCommand : Prop :=
  RowRuns 0x16 0xFC0FFFFF 0x58000000 (fun _ => True) (fun w => .desSbox (rdOf w) (rs1Of w)) ∧
  ∀ (s : State) (rd rs1 : BufReg),
    if s.bufs[rs1].len ≠ 6 then Fails (.desSbox rd rs1) s 1
    else Writes (.desSbox rd rs1) s rd (bytesOf (desS (bitsOf 48 s.bufs[rs1].bytes)))

/-- DES_DEC after DES_ENC under one schedule, whatever it holds, restores the block (42_des R181, R186; derived there).
-/
def Obligations.DesDecUndoesDesEnc : Prop :=
  ∀ (s : State) (rd rs1 rd' : BufReg), s.dkv = true → s.bufs[rs1].len = 8 →
    ∃ t u, exec (.desEnc rd rs1) s = .next t ∧ exec (.desDec rd' rd) t = .next u ∧
      HoldsBytes u.bufs[rd'] s.bufs[rs1].bytes ∧ t.err = 0 ∧ u.err = 0

/-! ### DEAL (43_deal) -/

/-- 43_deal R224: the default schedule, chained DES encryptions under the fixed key, is the core's unless it is built
with another one. -/
def Obligations.DealDefaultSchedule : Prop :=
  State.reset.dealKs = .knudsenDefault ∧ ∀ (key : BitVec 128) (k1 k2 : BitVec 64), key = k1 ++ k2 →
    let rk := DealKs.schedule .knudsenDefault key
    let e := desEncrypt 0x0123456789ABCDEF
    rk[0] = e k1 ∧ rk[1] = e (k2 ^^^ rk[0]) ∧ rk[2] = e (k1 ^^^ 0x0000000000000001 ^^^ rk[1]) ∧
    rk[3] = e (k2 ^^^ 0x0000000000000002 ^^^ rk[2]) ∧ rk[4] = e (k1 ^^^ 0x0000000000000004 ^^^ rk[3]) ∧
    rk[5] = e (k2 ^^^ 0x0000000000000008 ^^^ rk[4])

/-- 43_deal R227, for whatever schedule DEAL_KS the core has. -/
def Obligations.DealKeyCommand : Prop :=
  RowRuns 0x20 0xFF8FFFFF 0x80000000 (fun _ => True) (fun w => .dealKey (rs1Of w)) ∧
  ∀ (s : State) (rs1 : BufReg),
    if s.bufs[rs1].len ≠ 16 then Fails (.dealKey rs1) s 1
    else exec (.dealKey rs1) s =
      .next { s with eks := s.dealKs.schedule (bitsOf 128 s.bufs[rs1].bytes), ekv := true, err := 0 }

/-- 43_deal R228, with R221 and R222: six Feistel rounds whose round function is DES encryption. -/
def Obligations.DealEncCommand : Prop :=
  RowRuns 0x21 0xFC0FFFFF 0x84000000 (fun _ => True) (fun w => .dealEnc (rdOf w) (rs1Of w)) ∧
  ∀ (s : State) (rd rs1 : BufReg),
    if s.ekv = false then Fails (.dealEnc rd rs1) s 4
    else if s.bufs[rs1].len ≠ 16 then Fails (.dealEnc rd rs1) s 1
    else Writes (.dealEnc rd rs1) s rd
      (bytesOf (w := 128) (feistelEnc (h := 64) (fun r rk => desEncrypt rk r) s.eks.toList
        (bitsOf 128 s.bufs[rs1].bytes)))

/-- 43_deal R229, with R221 and R222: the round function is still DES encryption. -/
def Obligations.DealDecCommand : Prop :=
  RowRuns 0x22 0xFC0FFFFF 0x88000000 (fun _ => True) (fun w => .dealDec (rdOf w) (rs1Of w)) ∧
  ∀ (s : State) (rd rs1 : BufReg),
    if s.ekv = false then Fails (.dealDec rd rs1) s 4
    else if s.bufs[rs1].len ≠ 16 then Fails (.dealDec rd rs1) s 1
    else Writes (.dealDec rd rs1) s rd
      (bytesOf (w := 128) (feistelEnc (h := 64) (fun r rk => desEncrypt rk r) s.eks.toList.reverse
        (bitsOf 128 s.bufs[rs1].bytes)))

/-- 43_deal R230. -/
def Obligations.DealRkCommand : Prop :=
  RowRuns 0x23 0xFC7FFFF8 0x8C000000 (roundIn 6) (fun w => .dealRk (rdOf w) (immOf w)) ∧
  (∀ (s : State) (rd : BufReg) (round : BitVec 16), ¬(1 ≤ round.toNat ∧ round.toNat ≤ 6) →
    Fails (.dealRk rd round) s 3) ∧
  ∀ (s : State) (rd : BufReg) (round : BitVec 16) (i : Fin 6), round.toNat = i.val + 1 →
    if s.ekv = false then Fails (.dealRk rd round) s 4 else Writes (.dealRk rd round) s rd (bytesOf s.eks[i])

/-- 43_deal R231, with R221. -/
def Obligations.DealFCommand : Prop :=
  RowRuns 0x24 0xFC0FFFF8 0x90000000 (roundIn 6) (fun w => .dealF (rdOf w) (rs1Of w) (immOf w)) ∧
  (∀ (s : State) (rd rs1 : BufReg) (round : BitVec 16), ¬(1 ≤ round.toNat ∧ round.toNat ≤ 6) →
    Fails (.dealF rd rs1 round) s 3) ∧
  ∀ (s : State) (rd rs1 : BufReg) (round : BitVec 16) (i : Fin 6), round.toNat = i.val + 1 →
    if s.ekv = false then Fails (.dealF rd rs1 round) s 4
    else if s.bufs[rs1].len ≠ 8 then Fails (.dealF rd rs1 round) s 1
    else Writes (.dealF rd rs1 round) s rd (bytesOf (desEncrypt s.eks[i] (bitsOf 64 s.bufs[rs1].bytes)))

/-- 43_deal R232: bytes 0 to 7 of the source are L, bytes 8 to 15 are R. -/
def Obligations.DealRndCommand : Prop :=
  RowRuns 0x25 0xFC0FFFF8 0x94000000 (roundIn 6) (fun w => .dealRnd (rdOf w) (rs1Of w) (immOf w)) ∧
  (∀ (s : State) (rd rs1 : BufReg) (round : BitVec 16), ¬(1 ≤ round.toNat ∧ round.toNat ≤ 6) →
    Fails (.dealRnd rd rs1 round) s 3) ∧
  ∀ (s : State) (rd rs1 : BufReg) (round : BitVec 16) (i : Fin 6), round.toNat = i.val + 1 →
    if s.ekv = false then Fails (.dealRnd rd rs1 round) s 4
    else if s.bufs[rs1].len ≠ 16 then Fails (.dealRnd rd rs1 round) s 1
    else Writes (.dealRnd rd rs1 round) s rd
      (s.bufs[rs1].bytes.drop 8 ++ xorBuf (s.bufs[rs1].bytes.take 8)
        (bytesOf (desEncrypt s.eks[i] (bitsOf 64 (s.bufs[rs1].bytes.drop 8)))))

/-- DEAL_DEC after DEAL_ENC under one schedule, whatever it holds, restores the block (43_deal R223, R229; derived
there). -/
def Obligations.DealDecUndoesDealEnc : Prop :=
  ∀ (s : State) (rd rs1 rd' : BufReg), s.ekv = true → s.bufs[rs1].len = 16 →
    ∃ t u, exec (.dealEnc rd rs1) s = .next t ∧ exec (.dealDec rd' rd) t = .next u ∧
      HoldsBytes u.bufs[rd'] s.bufs[rs1].bytes ∧ t.err = 0 ∧ u.err = 0

/-! ### Control (44_control) -/

/-- 44_control R250: what CLRERR does, and that no other command lowers a sticky flag. -/
def Obligations.ClrErrCommand : Prop :=
  RowRuns 0x3F 0xFFFFFFFF 0xFC000000 (fun _ => True) (fun _ => .clrErr) ∧
  (∀ s : State, exec .clrErr s = .next { s with err := 0, anyErr := false, busErr := false }) ∧
  ∀ (i : Instr) (s t : State), i ≠ .clrErr → exec i s = .next t →
    (s.anyErr = true → t.anyErr = true) ∧ (s.busErr = true → t.busErr = true)
end

