-- ==== Sys2Proof/Laws/Bits.lean ====
section
/-! SUPPORT. Byte strings as integers and as bit strings: the conversions undo each other, and where each bit goes. -/

namespace Sys2Proof.Machine

/-! ### Big-endian bytes -/

@[simp] theorem length_bytesBE (v n : Nat) : (bytesBE v n).length = n := by
  induction n with
  | zero => rfl
  | succ n ih => simp [bytesBE, ih]

theorem getD_bytesBE (v : Nat) {n i : Nat} (h : i < n) :
    (bytesBE v n).getD i 0 = BitVec.ofNat 8 (v / 256 ^ (n - 1 - i)) := by
  induction n generalizing i with
  | zero => omega
  | succ n ih =>
    cases i with
    | zero => simp [bytesBE]
    | succ i =>
      rw [bytesBE, List.getD_cons_succ, ih (by omega)]
      congr 3
      omega

theorem val_foldl (b : Bytes) (acc : Nat) :
    b.foldl (fun acc x => acc * 256 + x.toNat) acc = acc * 256 ^ b.length + val b := by
  induction b generalizing acc with
  | nil => simp [val]
  | cons x b ih =>
    have h : val (x :: b) = x.toNat * 256 ^ b.length + val b := by
      rw [val, List.foldl_cons, ih]; simp
    rw [List.foldl_cons, ih, h, List.length_cons]
    ring

@[simp] theorem val_nil : val [] = 0 := rfl

theorem val_cons (x : Byte) (b : Bytes) : val (x :: b) = x.toNat * 256 ^ b.length + val b := by
  rw [val, List.foldl_cons, val_foldl]; simp

theorem val_lt (b : Bytes) : val b < 256 ^ b.length := by
  induction b with
  | nil => simp
  | cons x b ih =>
    have hx := x.isLt
    rw [val_cons, List.length_cons, pow_succ]
    nlinarith [Nat.zero_le (256 ^ b.length)]

theorem val_append (a b : Bytes) : val (a ++ b) = val a * 256 ^ b.length + val b := by
  conv_lhs => rw [val, List.foldl_append, val_foldl]
  rfl

theorem bytesBE_mod (v n : Nat) : bytesBE (v % 256 ^ n) n = bytesBE v n := by
  apply List.ext_getElem (by simp)
  intro i h1 h2
  have hi : i < n := by simpa using h2
  have e : 256 ^ n = 256 ^ (n - 1 - i) * (256 * 256 ^ i) := by
    rw [← pow_succ', ← pow_add]; congr 1; omega
  rw [← List.getD_eq_getElem _ 0 h1, ← List.getD_eq_getElem _ 0 h2, getD_bytesBE _ hi, getD_bytesBE _ hi]
  apply BitVec.eq_of_toNat_eq
  simp only [BitVec.toNat_ofNat]
  rw [e, Nat.mod_mul_right_div_self, Nat.mod_mul_right_mod]

theorem bytesBE_val (b : Bytes) : bytesBE (val b) b.length = b := by
  induction b with
  | nil => rfl
  | cons x b ih =>
    have hpos : 0 < 256 ^ b.length := by positivity
    rw [List.length_cons, bytesBE, val_cons]
    congr 1
    · apply BitVec.eq_of_toNat_eq
      rw [Nat.add_comm, Nat.add_mul_div_right _ _ hpos, Nat.div_eq_of_lt (val_lt b)]
      simp
    · rw [← bytesBE_mod, Nat.add_comm, Nat.add_mul_mod_self_right, Nat.mod_eq_of_lt (val_lt b), ih]

theorem val_bytesBE (v n : Nat) : val (bytesBE v n) = v % 256 ^ n := by
  induction n with
  | zero => simp [bytesBE, Nat.mod_one]
  | succ n ih =>
    have h : v % 256 ^ (n + 1) = v % 256 ^ n + 256 ^ n * (v / 256 ^ n % 256) := by rw [pow_succ, Nat.mod_mul]
    rw [bytesBE, val_cons, length_bytesBE, ih, BitVec.toNat_ofNat, h]
    ring

/-! ### Bits of byte strings -/

theorem bitM_bytesBE (v : Nat) {n j : Nat} (h : j < 8 * n) : bitM (bytesBE v n) j = v.testBit (8 * n - 1 - j) := by
  rw [bitM, getD_bytesBE v (by omega), BitVec.getLsbD_ofNat, show (256 : Nat) = 2 ^ 8 from rfl, ← pow_mul,
    Nat.testBit_div_two_pow]
  have h1 : 7 - j % 8 < 8 := by omega
  simp only [h1, decide_true, Bool.true_and]
  congr 1
  omega

/-- Bit `j` of a byte string, first bit first, is the bit of weight `2 ^ (8n - 1 - j)` (00_scope R10). -/
theorem bitM_eq_testBit (b : Bytes) {j : Nat} (h : j < 8 * b.length) :
    bitM b j = (val b).testBit (8 * b.length - 1 - j) := by
  conv_lhs => rw [← bytesBE_val b]
  exact bitM_bytesBE _ h

/-- Bit `j` of a byte string, last bit first, is the bit of weight `2 ^ j` (00_scope R9). -/
theorem bitL_eq_testBit (b : Bytes) {j : Nat} (h : j < 8 * b.length) : bitL b j = (val b).testBit j := by
  rw [bitL, bitM_eq_testBit b (by omega)]
  congr 1
  omega

/-- Two byte strings of one length with the same bits are equal. -/
theorem bytes_ext {a b : Bytes} (hl : a.length = b.length) (h : ∀ j < 8 * a.length, bitM a j = bitM b j) : a = b := by
  have hv : val a = val b := by
    apply Nat.eq_of_testBit_eq
    intro i
    by_cases hi : i < 8 * a.length
    · have := h (8 * a.length - 1 - i) (by omega)
      rw [bitM_eq_testBit a (by omega), bitM_eq_testBit b (by omega), ← hl] at this
      rwa [show 8 * a.length - 1 - (8 * a.length - 1 - i) = i by omega] at this
    · have ha := val_lt a
      have hb := val_lt b
      rw [show (256 : Nat) = 2 ^ 8 from rfl, ← pow_mul] at ha hb
      rw [Nat.testBit_eq_false_of_lt (lt_of_lt_of_le ha (Nat.pow_le_pow_right (by decide) (by omega))),
        Nat.testBit_eq_false_of_lt (lt_of_lt_of_le hb (Nat.pow_le_pow_right (by decide) (by omega)))]
  rw [← bytesBE_val a, ← bytesBE_val b, hv, hl]

/-! ### Bit sequences -/

theorem natOfBits_foldl (s : List Bool) (acc : Nat) :
    s.foldl (fun acc b => 2 * acc + b.toNat) acc = acc * 2 ^ s.length + natOfBits s := by
  induction s generalizing acc with
  | nil => simp [natOfBits]
  | cons x s ih =>
    have h : natOfBits (x :: s) = x.toNat * 2 ^ s.length + natOfBits s := by
      rw [natOfBits, List.foldl_cons, ih]; simp
    rw [List.foldl_cons, ih, h, List.length_cons]
    ring

theorem natOfBits_cons (x : Bool) (s : List Bool) : natOfBits (x :: s) = x.toNat * 2 ^ s.length + natOfBits s := by
  rw [natOfBits, List.foldl_cons, natOfBits_foldl]; simp

theorem natOfBits_lt (s : List Bool) : natOfBits s < 2 ^ s.length := by
  induction s with
  | nil => simp [natOfBits]
  | cons x s ih =>
    rw [natOfBits_cons, List.length_cons, pow_succ]
    cases x <;> simp <;> omega

theorem natOfBits_testBit (s : List Bool) {i : Nat} (h : i < s.length) :
    (natOfBits s).testBit (s.length - 1 - i) = s.getD i false := by
  induction s generalizing i with
  | nil => simp at h
  | cons x s ih =>
    rw [natOfBits_cons, Nat.mul_comm, List.length_cons]
    cases i with
    | zero =>
      rw [Nat.testBit_two_pow_mul_add _ (natOfBits_lt s)]
      cases x <;> simp
    | succ i =>
      have hi : i < s.length := by simpa using h
      rw [Nat.testBit_two_pow_mul_add _ (natOfBits_lt s), if_pos (by omega), List.getD_cons_succ, ← ih hi]
      congr 1
      omega

theorem getMsbD_natOfBits (s : List Bool) {k i : Nat} (hk : s.length = k) (hi : i < k) :
    (BitVec.ofNat k (natOfBits s)).getMsbD i = s.getD i false := by
  subst hk
  rw [BitVec.getMsbD_eq_getLsbD, BitVec.getLsbD_ofNat, natOfBits_testBit s hi]
  simp only [hi, decide_true, Bool.true_and]
  rw [decide_eq_true (by omega), Bool.true_and]

/-- Element `i` of a table applied to a bit sequence is the element the table names (00_scope R11). -/
theorem getMsbD_selectBits {w k : Nat} {table : List Nat} (x : BitVec w) (hk : table.length = k) {i : Nat} (hi : i < k) :
    (selectBits k table x).getMsbD i = x.getMsbD (table.getD i 0 - 1) := by
  have h : i < table.length := by omega
  rw [selectBits, getMsbD_natOfBits _ (by simpa using hk) hi]
  simp [List.getD_eq_getElem?_getD, h]

@[simp] theorem length_pack (s : List Bool) : (pack s).length = (s.length + 7) / 8 := by simp [pack]

/-- `pack` keeps every bit and pads with zero bits (00_scope R12). -/
theorem bitM_pack (s : List Bool) {j : Nat} (h : j < 8 * (pack s).length) : bitM (pack s) j = s.getD j false := by
  rw [length_pack] at h
  have h1 : j / 8 < (s.length + 7) / 8 := by omega
  rw [bitM, pack, List.getD_eq_getElem _ _ (by simpa using h1), List.getElem_map, List.getElem_range]
  have h2 := getMsbD_natOfBits ((List.range 8).map fun k => s.getD (8 * (j / 8) + k) false) (k := 8) (i := j % 8)
    (by simp) (by omega)
  rw [BitVec.getMsbD_eq_getLsbD] at h2
  simp only [show j % 8 < 8 by omega, decide_true, Bool.true_and] at h2
  rw [show 7 - j % 8 = 8 - 1 - j % 8 from rfl, h2, List.getD_eq_getElem _ _ (by simp; omega)]
  simp only [List.getElem_map, List.getElem_range]
  rw [show 8 * (j / 8) + j % 8 = j by omega]

/-! ### Fixed-width bit vectors and byte strings -/

@[simp] theorem length_bytesOf {w : Nat} (x : BitVec w) : (bytesOf x).length = w / 8 := by simp [bytesOf]

theorem bitM_bytesOf {w : Nat} (x : BitVec w) (hw : 8 * (w / 8) = w) {j : Nat} (hj : j < w) :
    bitM (bytesOf x) j = x.getMsbD j := by
  rw [bytesOf, bitM_bytesBE _ (by omega), BitVec.getMsbD_eq_getLsbD, hw]
  simp [hj, BitVec.getLsbD]

theorem getMsbD_bitsOf {w : Nat} (b : Bytes) (hb : 8 * b.length = w) {j : Nat} (hj : j < w) :
    (bitsOf w b).getMsbD j = bitM b j := by
  rw [bitsOf, BitVec.getMsbD_eq_getLsbD, BitVec.getLsbD_ofNat, bitM_eq_testBit b (by omega), hb]
  have : w - 1 - j < w := by omega
  simp [hj, this]

/-- A bit vector's bytes spell the bit vector. -/
theorem bitsOf_bytesOf {w : Nat} (x : BitVec w) (hw : 8 * (w / 8) = w) : bitsOf w (bytesOf x) = x := by
  apply BitVec.eq_of_toNat_eq
  have hx : x.toNat < 256 ^ (w / 8) := by
    rw [show (256 : Nat) = 2 ^ 8 from rfl, ← pow_mul, hw]; exact x.isLt
  rw [bitsOf, bytesOf, BitVec.toNat_ofNat, val_bytesBE, Nat.mod_eq_of_lt hx, Nat.mod_eq_of_lt x.isLt]

/-- The bytes of a byte string's bit vector are the byte string. -/
theorem bytesOf_bitsOf {w : Nat} (b : Bytes) (hb : 8 * b.length = w) : bytesOf (bitsOf w b) = b := by
  subst hb
  have h := val_lt b
  rw [show (256 : Nat) = 2 ^ 8 from rfl, ← pow_mul] at h
  rw [bytesOf, bitsOf, BitVec.toNat_ofNat, Nat.mod_eq_of_lt h, show 8 * b.length / 8 = b.length by omega, bytesBE_val]

end Sys2Proof.Machine
end

