-- ==== Sys2Proof/Laws/State.lean ====
section
/-! SUPPORT. What each state update leaves in each field, one lemma a field, so that no later proof unfolds an update. -/

namespace Sys2Proof.Machine

/-! ### `State.flagError` -/

@[simp] theorem State.flagError_bufs (s : State) (c : ErrorCode) : (s.flagError c).bufs = s.bufs := rfl
@[simp] theorem State.flagError_tbl (s : State) (c : ErrorCode) : (s.flagError c).tbl = s.tbl := rfl
@[simp] theorem State.flagError_dkv (s : State) (c : ErrorCode) : (s.flagError c).dkv = s.dkv := rfl
@[simp] theorem State.flagError_dks (s : State) (c : ErrorCode) : (s.flagError c).dks = s.dks := rfl
@[simp] theorem State.flagError_ekv (s : State) (c : ErrorCode) : (s.flagError c).ekv = s.ekv := rfl
@[simp] theorem State.flagError_eks (s : State) (c : ErrorCode) : (s.flagError c).eks = s.eks := rfl
@[simp] theorem State.flagError_cmd (s : State) (c : ErrorCode) : (s.flagError c).cmd = s.cmd := rfl
@[simp] theorem State.flagError_err (s : State) (c : ErrorCode) : (s.flagError c).err = c.toBits := rfl
@[simp] theorem State.flagError_anyErr (s : State) (c : ErrorCode) : (s.flagError c).anyErr = true := rfl
@[simp] theorem State.flagError_busErr (s : State) (c : ErrorCode) : (s.flagError c).busErr = s.busErr := rfl
@[simp] theorem State.flagError_pcfg (s : State) (c : ErrorCode) : (s.flagError c).pcfg = s.pcfg := rfl
@[simp] theorem State.flagError_dealKs (s : State) (c : ErrorCode) : (s.flagError c).dealKs = s.dealKs := rfl
@[simp] theorem State.flagError_host (s : State) (c : ErrorCode) : (s.flagError c).host = s.host := rfl
@[simp] theorem State.flagError_replies (s : State) (c : ErrorCode) : (s.flagError c).replies = s.replies := rfl

/-! ### `State.flagSuccess` -/

@[simp] theorem State.flagSuccess_bufs (s : State) : s.flagSuccess.bufs = s.bufs := rfl
@[simp] theorem State.flagSuccess_tbl (s : State) : s.flagSuccess.tbl = s.tbl := rfl
@[simp] theorem State.flagSuccess_dkv (s : State) : s.flagSuccess.dkv = s.dkv := rfl
@[simp] theorem State.flagSuccess_dks (s : State) : s.flagSuccess.dks = s.dks := rfl
@[simp] theorem State.flagSuccess_ekv (s : State) : s.flagSuccess.ekv = s.ekv := rfl
@[simp] theorem State.flagSuccess_eks (s : State) : s.flagSuccess.eks = s.eks := rfl
@[simp] theorem State.flagSuccess_cmd (s : State) : s.flagSuccess.cmd = s.cmd := rfl
@[simp] theorem State.flagSuccess_err (s : State) : s.flagSuccess.err = 0 := rfl
@[simp] theorem State.flagSuccess_anyErr (s : State) : s.flagSuccess.anyErr = s.anyErr := rfl
@[simp] theorem State.flagSuccess_busErr (s : State) : s.flagSuccess.busErr = s.busErr := rfl
@[simp] theorem State.flagSuccess_pcfg (s : State) : s.flagSuccess.pcfg = s.pcfg := rfl
@[simp] theorem State.flagSuccess_dealKs (s : State) : s.flagSuccess.dealKs = s.dealKs := rfl
@[simp] theorem State.flagSuccess_host (s : State) : s.flagSuccess.host = s.host := rfl
@[simp] theorem State.flagSuccess_replies (s : State) : s.flagSuccess.replies = s.replies := rfl

/-! ### `State.clearSticky` -/

@[simp] theorem State.clearSticky_bufs (s : State) : s.clearSticky.bufs = s.bufs := rfl
@[simp] theorem State.clearSticky_tbl (s : State) : s.clearSticky.tbl = s.tbl := rfl
@[simp] theorem State.clearSticky_dkv (s : State) : s.clearSticky.dkv = s.dkv := rfl
@[simp] theorem State.clearSticky_dks (s : State) : s.clearSticky.dks = s.dks := rfl
@[simp] theorem State.clearSticky_ekv (s : State) : s.clearSticky.ekv = s.ekv := rfl
@[simp] theorem State.clearSticky_eks (s : State) : s.clearSticky.eks = s.eks := rfl
@[simp] theorem State.clearSticky_cmd (s : State) : s.clearSticky.cmd = s.cmd := rfl
@[simp] theorem State.clearSticky_err (s : State) : s.clearSticky.err = s.err := rfl
@[simp] theorem State.clearSticky_anyErr (s : State) : s.clearSticky.anyErr = false := rfl
@[simp] theorem State.clearSticky_busErr (s : State) : s.clearSticky.busErr = false := rfl
@[simp] theorem State.clearSticky_pcfg (s : State) : s.clearSticky.pcfg = s.pcfg := rfl
@[simp] theorem State.clearSticky_dealKs (s : State) : s.clearSticky.dealKs = s.dealKs := rfl
@[simp] theorem State.clearSticky_host (s : State) : s.clearSticky.host = s.host := rfl
@[simp] theorem State.clearSticky_replies (s : State) : s.clearSticky.replies = s.replies := rfl

/-! ### `State.flagBusError` -/

@[simp] theorem State.flagBusError_bufs (s : State) : s.flagBusError.bufs = s.bufs := rfl
@[simp] theorem State.flagBusError_tbl (s : State) : s.flagBusError.tbl = s.tbl := rfl
@[simp] theorem State.flagBusError_dkv (s : State) : s.flagBusError.dkv = s.dkv := rfl
@[simp] theorem State.flagBusError_dks (s : State) : s.flagBusError.dks = s.dks := rfl
@[simp] theorem State.flagBusError_ekv (s : State) : s.flagBusError.ekv = s.ekv := rfl
@[simp] theorem State.flagBusError_eks (s : State) : s.flagBusError.eks = s.eks := rfl
@[simp] theorem State.flagBusError_cmd (s : State) : s.flagBusError.cmd = s.cmd := rfl
@[simp] theorem State.flagBusError_err (s : State) : s.flagBusError.err = s.err := rfl
@[simp] theorem State.flagBusError_anyErr (s : State) : s.flagBusError.anyErr = s.anyErr := rfl
@[simp] theorem State.flagBusError_busErr (s : State) : s.flagBusError.busErr = true := rfl
@[simp] theorem State.flagBusError_pcfg (s : State) : s.flagBusError.pcfg = s.pcfg := rfl
@[simp] theorem State.flagBusError_dealKs (s : State) : s.flagBusError.dealKs = s.dealKs := rfl
@[simp] theorem State.flagBusError_host (s : State) : s.flagBusError.host = s.host := rfl
@[simp] theorem State.flagBusError_replies (s : State) : s.flagBusError.replies = s.replies := rfl

/-! ### `State.writeBuf` -/

@[simp] theorem State.writeBuf_bufs (s : State) (n : BufReg) (v : Bytes) : (s.writeBuf n v).bufs = s.bufs.set n (Buf.ofBytes v) := rfl
@[simp] theorem State.writeBuf_tbl (s : State) (n : BufReg) (v : Bytes) : (s.writeBuf n v).tbl = s.tbl := rfl
@[simp] theorem State.writeBuf_dkv (s : State) (n : BufReg) (v : Bytes) : (s.writeBuf n v).dkv = s.dkv := rfl
@[simp] theorem State.writeBuf_dks (s : State) (n : BufReg) (v : Bytes) : (s.writeBuf n v).dks = s.dks := rfl
@[simp] theorem State.writeBuf_ekv (s : State) (n : BufReg) (v : Bytes) : (s.writeBuf n v).ekv = s.ekv := rfl
@[simp] theorem State.writeBuf_eks (s : State) (n : BufReg) (v : Bytes) : (s.writeBuf n v).eks = s.eks := rfl
@[simp] theorem State.writeBuf_cmd (s : State) (n : BufReg) (v : Bytes) : (s.writeBuf n v).cmd = s.cmd := rfl
@[simp] theorem State.writeBuf_err (s : State) (n : BufReg) (v : Bytes) : (s.writeBuf n v).err = s.err := rfl
@[simp] theorem State.writeBuf_anyErr (s : State) (n : BufReg) (v : Bytes) : (s.writeBuf n v).anyErr = s.anyErr := rfl
@[simp] theorem State.writeBuf_busErr (s : State) (n : BufReg) (v : Bytes) : (s.writeBuf n v).busErr = s.busErr := rfl
@[simp] theorem State.writeBuf_pcfg (s : State) (n : BufReg) (v : Bytes) : (s.writeBuf n v).pcfg = s.pcfg := rfl
@[simp] theorem State.writeBuf_dealKs (s : State) (n : BufReg) (v : Bytes) : (s.writeBuf n v).dealKs = s.dealKs := rfl
@[simp] theorem State.writeBuf_host (s : State) (n : BufReg) (v : Bytes) : (s.writeBuf n v).host = s.host := rfl
@[simp] theorem State.writeBuf_replies (s : State) (n : BufReg) (v : Bytes) : (s.writeBuf n v).replies = s.replies := rfl

/-! ### `State.reply` -/

@[simp] theorem State.reply_bufs (s : State) (r : Reply) : (s.reply r).bufs = s.bufs := rfl
@[simp] theorem State.reply_tbl (s : State) (r : Reply) : (s.reply r).tbl = s.tbl := rfl
@[simp] theorem State.reply_dkv (s : State) (r : Reply) : (s.reply r).dkv = s.dkv := rfl
@[simp] theorem State.reply_dks (s : State) (r : Reply) : (s.reply r).dks = s.dks := rfl
@[simp] theorem State.reply_ekv (s : State) (r : Reply) : (s.reply r).ekv = s.ekv := rfl
@[simp] theorem State.reply_eks (s : State) (r : Reply) : (s.reply r).eks = s.eks := rfl
@[simp] theorem State.reply_cmd (s : State) (r : Reply) : (s.reply r).cmd = s.cmd := rfl
@[simp] theorem State.reply_err (s : State) (r : Reply) : (s.reply r).err = s.err := rfl
@[simp] theorem State.reply_anyErr (s : State) (r : Reply) : (s.reply r).anyErr = s.anyErr := rfl
@[simp] theorem State.reply_busErr (s : State) (r : Reply) : (s.reply r).busErr = s.busErr := rfl
@[simp] theorem State.reply_pcfg (s : State) (r : Reply) : (s.reply r).pcfg = s.pcfg := rfl
@[simp] theorem State.reply_dealKs (s : State) (r : Reply) : (s.reply r).dealKs = s.dealKs := rfl
@[simp] theorem State.reply_host (s : State) (r : Reply) : (s.reply r).host = s.host := rfl
@[simp] theorem State.reply_replies (s : State) (r : Reply) : (s.reply r).replies = s.replies ++ [r] := rfl

/-! ### `State.busError` -/

@[simp] theorem State.busError_bufs (s : State) : s.busError.bufs = s.bufs := rfl
@[simp] theorem State.busError_tbl (s : State) : s.busError.tbl = s.tbl := rfl
@[simp] theorem State.busError_dkv (s : State) : s.busError.dkv = s.dkv := rfl
@[simp] theorem State.busError_dks (s : State) : s.busError.dks = s.dks := rfl
@[simp] theorem State.busError_ekv (s : State) : s.busError.ekv = s.ekv := rfl
@[simp] theorem State.busError_eks (s : State) : s.busError.eks = s.eks := rfl
@[simp] theorem State.busError_cmd (s : State) : s.busError.cmd = s.cmd := rfl
@[simp] theorem State.busError_err (s : State) : s.busError.err = s.err := rfl
@[simp] theorem State.busError_anyErr (s : State) : s.busError.anyErr = s.anyErr := rfl
@[simp] theorem State.busError_busErr (s : State) : s.busError.busErr = true := rfl
@[simp] theorem State.busError_pcfg (s : State) : s.busError.pcfg = s.pcfg := rfl
@[simp] theorem State.busError_dealKs (s : State) : s.busError.dealKs = s.dealKs := rfl
@[simp] theorem State.busError_host (s : State) : s.busError.host = s.host := rfl
@[simp] theorem State.busError_replies (s : State) : s.busError.replies = s.replies ++ [.busError] := rfl

/-! ### `State.resetCore` -/

@[simp] theorem State.resetCore_bufs (s : State) : s.resetCore.bufs = State.reset.bufs := rfl
@[simp] theorem State.resetCore_tbl (s : State) : s.resetCore.tbl = State.reset.tbl := rfl
@[simp] theorem State.resetCore_dkv (s : State) : s.resetCore.dkv = State.reset.dkv := rfl
@[simp] theorem State.resetCore_dks (s : State) : s.resetCore.dks = State.reset.dks := rfl
@[simp] theorem State.resetCore_ekv (s : State) : s.resetCore.ekv = State.reset.ekv := rfl
@[simp] theorem State.resetCore_eks (s : State) : s.resetCore.eks = State.reset.eks := rfl
@[simp] theorem State.resetCore_cmd (s : State) : s.resetCore.cmd = State.reset.cmd := rfl
@[simp] theorem State.resetCore_err (s : State) : s.resetCore.err = State.reset.err := rfl
@[simp] theorem State.resetCore_anyErr (s : State) : s.resetCore.anyErr = State.reset.anyErr := rfl
@[simp] theorem State.resetCore_busErr (s : State) : s.resetCore.busErr = State.reset.busErr := rfl
@[simp] theorem State.resetCore_pcfg (s : State) : s.resetCore.pcfg = State.reset.pcfg := rfl
@[simp] theorem State.resetCore_dealKs (s : State) : s.resetCore.dealKs = s.dealKs := rfl
@[simp] theorem State.resetCore_host (s : State) : s.resetCore.host = s.host := rfl
@[simp] theorem State.resetCore_replies (s : State) : s.resetCore.replies = s.replies := rfl

end Sys2Proof.Machine
end

