-- ==== Sys2Proof/Laws/Ops.lean ====
section
/-! SUPPORT. One lemma for each shared operation of the commands, saying everything it can do. -/

namespace Sys2Proof.Machine

/-! ### Buffer registers -/

theorem Buf.length_bytes (b : Buf) : b.bytes.length = min b.len.toNat 16 := by simp [Buf.bytes]

theorem Buf.length_bytes_of_le {b : Buf} (h : b.len.toNat ≤ 16) : b.bytes.length = b.len.toNat := by
  simp [Buf.length_bytes, h]

theorem Buf.length_bytes_le (b : Buf) : b.bytes.length ≤ 16 := by simp [Buf.length_bytes]

@[simp] theorem Buf.ofBytes_len {v : Bytes} (h : v.length ≤ 16) : (Buf.ofBytes v).len.toNat = v.length := by
  simp only [Buf.ofBytes, BitVec.toNat_ofNat]
  omega

@[simp] theorem Buf.ofBytes_data (v : Bytes) (i : Fin 16) : (Buf.ofBytes v).data[i] = v.getD i 0 := by
  simp [Buf.ofBytes]

/-- A command write holds what was written (10_state R24). -/
theorem Buf.ofBytes_holds {v : Bytes} (h : v.length ≤ 16) : HoldsBytes (Buf.ofBytes v) v :=
  ⟨Buf.ofBytes_len h, Buf.ofBytes_data v⟩

/-- A register that holds a byte string reads as it. -/
theorem HoldsBytes.bytes_eq {b : Buf} {v : Bytes} (h : HoldsBytes b v) (hv : v.length ≤ 16) : b.bytes = v := by
  apply List.ext_getElem
  · rw [Buf.length_bytes, h.len]; omega
  · intro i h1 h2
    have h3 := h.byte ⟨i, by omega⟩
    rw [List.getD_eq_getElem _ _ h2] at h3
    rw [← h3]
    simp [Buf.bytes]

theorem Buf.bytes_ofBytes {v : Bytes} (h : v.length ≤ 16) : (Buf.ofBytes v).bytes = v :=
  (Buf.ofBytes_holds h).bytes_eq h

@[simp] theorem State.writeBuf_self (s : State) (n : BufReg) (v : Bytes) :
    (s.writeBuf n v).bufs[n] = Buf.ofBytes v := by simp [State.writeBuf]

theorem State.writeBuf_other (s : State) {n m : BufReg} (v : Bytes) (h : m ≠ n) :
    (s.writeBuf n v).bufs[m] = s.bufs[m] := by
  simp only [State.writeBuf, Fin.getElem_fin]
  rw [Vector.getElem_set_ne]
  exact fun e => h (Fin.ext e.symm)

/-- A completed single write, in the terms of Safety.lean. -/
theorem wroteBuf_writeBuf (s : State) (rd : BufReg) {v : Bytes} (h : v.length ≤ 16) :
    WroteBuf s (s.writeBuf rd v).flagSuccess rd v where
  holds := by simpa using Buf.ofBytes_holds h
  others n hn := by simpa using State.writeBuf_other s v hn
  rest := rfl

/-! ### Checks and operands: what each answers -/

theorem check_eq (p : Bool) (c : ErrorCode) : check p c = if p then .ok () else .error c := rfl

@[simp] theorem State.readBuf_ok {s : State} {n : BufReg} (h : s.bufs[n].len.toNat ≤ 16) :
    s.readBuf n = .ok s.bufs[n].bytes := if_neg (Nat.not_lt.2 h)

@[simp] theorem State.readBuf_error {s : State} {n : BufReg} (h : 16 < s.bufs[n].len.toNat) :
    s.readBuf n = .error .sizeMismatch := if_pos h

/-- A sized read succeeds exactly on a register of that length. -/
theorem State.readSized_eq (s : State) (n : BufReg) {k : Nat} (hk : k ≤ 16) :
    s.readSized n k = if s.bufs[n].len.toNat = k then .ok s.bufs[n].bytes else .error .sizeMismatch := by
  unfold State.readSized
  by_cases h : s.bufs[n].len.toNat ≤ 16
  · rw [State.readBuf_ok h]
    by_cases hk : s.bufs[n].len.toNat = k
    · simp only [bind, Except.bind, check, Buf.length_bytes_of_le h, hk, decide_true, if_true]; rfl
    · simp only [bind, Except.bind, check, Buf.length_bytes_of_le h, hk, decide_false, if_false]; rfl
  · rw [State.readBuf_error (by omega), if_neg (by omega)]
    rfl

/-- The same, with the length as the register holds it. -/
theorem State.readSized_eq' (s : State) (n : BufReg) {k : Nat} (hk : k ≤ 16) :
    s.readSized n k = if s.bufs[n].len ≠ BitVec.ofNat 5 k then .error .sizeMismatch else .ok s.bufs[n].bytes := by
  rw [State.readSized_eq s n hk]
  have h : (BitVec.ofNat 5 k).toNat = k := by simp; omega
  by_cases hl : s.bufs[n].len = BitVec.ofNat 5 k
  · rw [if_pos (by rw [hl, h]), if_neg (by simpa using hl)]
  · rw [if_neg (by rw [BitVec.toNat_eq, h] at hl; exact hl), if_pos hl]

theorem State.readBuf_cases (s : State) (n : BufReg) :
    (∃ b, s.readBuf n = .ok b) ∨ s.readBuf n = .error .sizeMismatch := by
  unfold State.readBuf; split <;> simp

theorem State.readSized_cases (s : State) (n : BufReg) {k : Nat} (hk : k ≤ 16) :
    (∃ b, s.readSized n k = .ok b) ∨ s.readSized n k = .error .sizeMismatch := by
  rw [s.readSized_eq n hk]; split <;> simp

theorem State.desKeys_cases (s : State) : (∃ ks, s.desKeys = .ok ks) ∨ s.desKeys = .error .keyNotSet := by
  unfold State.desKeys; split <;> simp

theorem State.dealKeys_cases (s : State) : (∃ ks, s.dealKeys = .ok ks) ∨ s.dealKeys = .error .keyNotSet := by
  unfold State.dealKeys; split <;> simp

theorem roundIndex_cases (rounds : Nat) (round : BitVec 16) :
    (∃ i, roundIndex rounds round = .ok i) ∨ roundIndex rounds round = .error .illegalCommand := by
  unfold roundIndex; split <;> simp

/-- A round index within its limits is the index one below it (30_encoding R83). -/
theorem roundIndex_eq {rounds : Nat} {round : BitVec 16} {i : Fin rounds} (h : round.toNat = i.val + 1) :
    roundIndex rounds round = .ok i := by
  have := i.isLt
  have h1 : 1 ≤ round.toNat ∧ round.toNat ≤ rounds := by omega
  simp only [roundIndex, h1, and_self, dite_true, Except.ok.injEq]
  ext; simp [h]

theorem roundIndex_ok {rounds : Nat} {round : BitVec 16} (h : 1 ≤ round.toNat ∧ round.toNat ≤ rounds) :
    roundIndex rounds round = .ok ⟨round.toNat - 1, by omega⟩ := by simp [roundIndex, h]

theorem roundIndex_error {rounds : Nat} {round : BitVec 16} (h : ¬(1 ≤ round.toNat ∧ round.toNat ≤ rounds)) :
    roundIndex rounds round = .error .illegalCommand := by simp [roundIndex, h]

theorem State.desKeys_eq (s : State) : s.desKeys = if s.dkv then .ok s.dks else .error .keyNotSet := rfl

theorem State.dealKeys_eq (s : State) : s.dealKeys = if s.ekv then .ok s.eks else .error .keyNotSet := rfl

/-! ### How a command ends -/

@[simp] theorem State.finish_ok (s t : State) : s.finish (.ok t) = .next t.flagSuccess := rfl

@[simp] theorem State.finish_error (s : State) (c : ErrorCode) : s.finish (.error c) = .next (s.flagError c) := rfl

/-- A command ends in a next state: aborted, or completed with the state its body gives (60_exceptions R260). -/
theorem State.finish_cases (s : State) (body : Except ErrorCode State) :
    (∃ c, body = .error c ∧ s.finish body = .next (s.flagError c)) ∨
    (∃ t, body = .ok t ∧ s.finish body = .next t.flagSuccess) := by
  cases body with
  | error c => exact .inl ⟨c, rfl, rfl⟩
  | ok t => exact .inr ⟨t, rfl, rfl⟩

theorem except_bind_ok {α β : Type} {x : Except ErrorCode α} {f : α → Except ErrorCode β} {b : β} :
    (x >>= f) = .ok b ↔ ∃ a, x = .ok a ∧ f a = .ok b := by
  cases x <;> simp [bind, Except.bind]

/-! ### Lengths of the kernel's results -/

theorem length_xorBuf (a b : Bytes) : (xorBuf a b).length = min a.length b.length := by simp [xorBuf]

theorem length_splitHalves (b : Bytes) :
    (splitHalves b).1.length = (b.length + 1) / 2 ∧ (splitHalves b).2.length = (b.length + 1) / 2 := by
  simp only [splitHalves]
  split
  · simp only [List.length_take, List.length_drop]; omega
  · simp

@[simp] theorem length_rotlLow (src : Bytes) (s w : Nat) : (rotlLow src s w).length = src.length := by
  simp [rotlLow]

theorem length_permuteBits {src : Bytes} {off : Int} {dir : Direction} {table : List Nat} {bs : List Bool}
    (h : permuteBits src off dir table = some bs) : bs.length = table.length := by
  induction table generalizing bs with
  | nil => simp_all [permuteBits]
  | cons e table ih =>
    unfold permuteBits at h
    split at h
    · obtain rfl := Option.some.inj h; simp [ih ‹_›]
    · cases h

theorem length_permute {src : Bytes} {off : Int} {dir : Direction} {table : List Nat} {r : Bytes}
    (h : permute src table off dir = some r) : r.length = (table.length + 7) / 8 := by
  simp only [permute, Option.map_eq_some_iff] at h
  obtain ⟨bs, hb, rfl⟩ := h
  simp [length_permuteBits hb]

end Sys2Proof.Machine
end

