-- ==== Sys2Proof/Laws/Commands.lean ====
section
/-! SUPPORT. What a command can do, said once: every command ends in a next state, aborted or completed, and a completed
one changed no more than its family changes. -/

namespace Sys2Proof.Machine

/-- What a completed command left, by the kind of its destination (10_state R25). -/
inductive Completed : Instr → State → State → Prop
  /-- one buffer register -/
  | wrote {i s} (rd : BufReg) (v : Bytes) (hv : v.length ≤ 16) (hd : destinations i = [rd]) :
    Completed i s (s.writeBuf rd v).flagSuccess
  /-- SPLIT's two buffer registers -/
  | wroteTwo {s} (rd rs1 rs2 : BufReg) (v w : Bytes) (hv : v.length ≤ 16) (hw : w.length ≤ 16) (hne : rd ≠ rs2) :
    Completed (.split rd rs1 rs2) s ((s.writeBuf rd v).writeBuf rs2 w).flagSuccess
  /-- DES_KEY's schedule and flag -/
  | desKey {s} (rs1 : BufReg) (hl : s.bufs[rs1].len.toNat = 8) :
    Completed (.desKey rs1) s { s with dks := desKS (bitsOf 64 s.bufs[rs1].bytes), dkv := true, err := 0 }
  /-- DEAL_KEY's schedule and flag -/
  | dealKey {s} (rs1 : BufReg) (hl : s.bufs[rs1].len.toNat = 16) :
    Completed (.dealKey rs1) s
      { s with eks := s.dealKs.schedule (bitsOf 128 s.bufs[rs1].bytes), ekv := true, err := 0 }
  /-- CLRERR's flags -/
  | clrErr {s} : Completed .clrErr s { s with anyErr := false, busErr := false, err := 0 }

/-- A body that only reads and then writes one buffer register. -/
theorem finish_wrote {i : Instr} {rd : BufReg} (hd : destinations i = [rd]) {s : State}
    {body : Except ErrorCode State} (h : ∀ t, body = .ok t → ∃ v, v.length ≤ 16 ∧ t = s.writeBuf rd v) :
    (∃ c, s.finish body = .next (s.flagError c)) ∨ ∃ t, s.finish body = .next t ∧ Completed i s t := by
  rcases s.finish_cases body with ⟨c, -, h'⟩ | ⟨t, ht, h'⟩
  · exact .inl ⟨c, h'⟩
  · obtain ⟨v, hv, rfl⟩ := h t ht
    exact .inr ⟨_, h', .wrote rd v hv hd⟩

theorem State.readBuf_length {s : State} {n : BufReg} {b : Bytes} (h : s.readBuf n = .ok b) : b.length ≤ 16 := by
  unfold State.readBuf at h
  split at h
  · cases h
  · cases h; exact Buf.length_bytes_le _

/-- Every command ends in a next state, aborted or completed (60_exceptions R262, R263). -/
theorem exec_cases (i : Instr) (s : State) :
    (∃ c, exec i s = .next (s.flagError c)) ∨ ∃ t, exec i s = .next t ∧ Completed i s t := by
  cases i with
  | xor rd rs1 rs2 =>
    refine finish_wrote (rd := rd) rfl fun t ht => ?_
    simp only [except_bind_ok, pure, Except.pure, Except.ok.injEq] at ht
    obtain ⟨a, ha, b, -, -, -, rfl⟩ := ht
    exact ⟨_, by rw [length_xorBuf]; have := State.readBuf_length ha; omega, rfl⟩
  | split rd rs1 rs2 =>
    simp only [exec, execSplit]
    rcases s.finish_cases _ with ⟨c, -, h'⟩ | ⟨t, ht, h'⟩
    · exact .inl ⟨c, h'⟩
    · refine .inr ⟨_, h', ?_⟩
      simp only [except_bind_ok, pure, Except.pure, Except.ok.injEq, check_eq] at ht
      obtain ⟨_, hc, b, hb, rfl⟩ := ht
      have hl := State.readBuf_length hb
      have hs := length_splitHalves b
      by_cases hne : rd = rs2
      · simp [hne] at hc
      · exact .wroteTwo rd rs1 rs2 _ _ (by omega) (by omega) hne
  | join rd rs1 rs2 =>
    refine finish_wrote (rd := rd) rfl fun t ht => ?_
    simp only [except_bind_ok, pure, Except.pure, Except.ok.injEq, check_eq] at ht
    obtain ⟨a, -, b, -, _, h1, _, h2, rfl⟩ := ht
    refine ⟨_, ?_, rfl⟩
    split at h1 <;> split at h2 <;> simp_all
    omega
  | perm rd rs1 =>
    refine finish_wrote (rd := rd) rfl fun t ht => ?_
    simp only [except_bind_ok, pure, Except.pure, check_eq] at ht
    obtain ⟨a, -, _, h1, _, -, h2⟩ := ht
    split at h2
    · cases h2
    · cases h2
      refine ⟨_, ?_, rfl⟩
      rw [length_permute ‹_›]
      split at h1 <;> simp_all [State.permTable]
      omega
  | rotl rd rs1 amount width =>
    refine finish_wrote (rd := rd) rfl fun t ht => ?_
    simp only [except_bind_ok, pure, Except.pure, Except.ok.injEq] at ht
    obtain ⟨a, ha, _, -, rfl⟩ := ht
    exact ⟨_, by simpa using State.readBuf_length ha, rfl⟩
  | desKey rs1 =>
    simp only [exec, execDesKey, s.readSized_eq rs1 (show 8 ≤ 16 by decide)]
    by_cases h : s.bufs[rs1].len.toNat = 8
    · exact .inr ⟨_, by rw [if_pos h]; rfl, .desKey rs1 h⟩
    · exact .inl ⟨.sizeMismatch, by rw [if_neg h]; rfl⟩
  | dealKey rs1 =>
    simp only [exec, execDealKey, s.readSized_eq rs1 (show 16 ≤ 16 by decide)]
    by_cases h : s.bufs[rs1].len.toNat = 16
    · exact .inr ⟨_, by rw [if_pos h]; rfl, .dealKey rs1 h⟩
    · exact .inl ⟨.sizeMismatch, by rw [if_neg h]; rfl⟩
  | clrErr => exact .inr ⟨_, rfl, .clrErr⟩
  | desEnc rd rs1 | desDec rd rs1 | dealEnc rd rs1 | dealDec rd rs1 =>
    refine finish_wrote (rd := rd) rfl fun t ht => ?_
    simp only [except_bind_ok, pure, Except.pure, Except.ok.injEq] at ht
    obtain ⟨_, -, _, -, rfl⟩ := ht
    exact ⟨_, by simp, rfl⟩
  | desSbox rd rs1 =>
    refine finish_wrote (rd := rd) rfl fun t ht => ?_
    simp only [except_bind_ok, pure, Except.pure, Except.ok.injEq] at ht
    obtain ⟨_, -, rfl⟩ := ht
    exact ⟨_, by simp, rfl⟩
  | desRk rd round | dealRk rd round =>
    refine finish_wrote (rd := rd) rfl fun t ht => ?_
    simp only [except_bind_ok, pure, Except.pure, Except.ok.injEq] at ht
    obtain ⟨_, -, _, -, rfl⟩ := ht
    exact ⟨_, by simp, rfl⟩
  | desF rd rs1 round | desRnd rd rs1 round | dealF rd rs1 round | dealRnd rd rs1 round =>
    refine finish_wrote (rd := rd) rfl fun t ht => ?_
    simp only [except_bind_ok, pure, Except.pure, Except.ok.injEq] at ht
    obtain ⟨_, -, _, -, _, -, rfl⟩ := ht
    exact ⟨_, by simp, rfl⟩

/-- A completed command's buffer registers: the destinations have a length of at most 16, the others are unchanged. -/
theorem Completed.bufs {i : Instr} {s t : State} (hc : Completed i s t) (n : BufReg) :
    (n ∉ destinations i → t.bufs[n] = s.bufs[n]) ∧ (t.bufs[n] = s.bufs[n] ∨ t.bufs[n].len.toNat ≤ 16) := by
  cases hc with
  | wrote rd v hv hd =>
    rw [State.flagSuccess_bufs, hd]
    by_cases h : n = rd
    · subst h; rw [State.writeBuf_self, Buf.ofBytes_len hv]; simp [hv]
    · rw [State.writeBuf_other s v h]; simp
  | wroteTwo rd rs1 rs2 v w hv hw hne =>
    rw [State.flagSuccess_bufs]
    by_cases h : n = rs2
    · subst h; rw [State.writeBuf_self, Buf.ofBytes_len hw]; simp [hw, destinations]
    · rw [State.writeBuf_other _ _ h]
      by_cases h : n = rd
      · subst h; rw [State.writeBuf_self, Buf.ofBytes_len hv]; simp [hv, destinations]
      · rw [State.writeBuf_other s v h]; simp
  | desKey => simp
  | dealKey => simp
  | clrErr => simp

theorem ErrorCode.toBits_le (c : ErrorCode) : c.toBits.toNat ≤ 4 := by cases c <;> decide

theorem ErrorCode.toBits_ne_zero (c : ErrorCode) : c.toBits ≠ 0 := by cases c <;> decide

/-- Every command ends in a next state. -/
theorem exec_next (i : Instr) (s : State) : ∃ t, exec i s = .next t := by
  rcases exec_cases i s with ⟨c, h⟩ | ⟨t, h, -⟩
  · exact ⟨_, h⟩
  · exact ⟨t, h⟩

end Sys2Proof.Machine
end

