-- ==== Sys2Proof/Laws/Bus.lean ====
section
/-! SUPPORT. The host bus: the address map, and what a step with a host action at its head is. -/

namespace Sys2Proof.Machine

/-! ### The address map (20_memory R56) -/

theorem hostReg_cmd : hostReg 0x000 = some .cmd := by decide

theorem hostReg_len (n : BufReg) : hostReg (BitVec.ofNat 12 (0x010 + 4 * n.val)) = some (.len n) := by
  revert n; decide

theorem hostReg_data (n : BufReg) (k : Fin 4) :
    hostReg (BitVec.ofNat 12 (0x100 + 16 * n.val + 4 * k.val)) = some (.data n k) := by
  revert n k; decide

theorem hostReg_tbl (j : Fin 256) : hostReg (BitVec.ofNat 12 (0x400 + 4 * j.val)) = some (.tbl j) := by
  have hj := j.isLt
  have h : (BitVec.ofNat 12 (0x400 + 4 * j.val)).toNat = 0x400 + 4 * j.val := by
    rw [BitVec.toNat_ofNat]; omega
  simp only [hostReg, h]
  repeat' split
  all_goals first | omega | skip
  congr 2
  ext; simp only [Fin.ofNat]; omega

theorem hostReg_unmapped {addr : Addr} (h : UnmappedAddr addr) : hostReg addr = none := by
  have := addr.isLt
  unfold UnmappedAddr at h
  simp only [hostReg]
  repeat' split
  all_goals first | rfl | omega

/-- The word of four bytes as an integer (20_memory R61, R67). -/
theorem wordOfBytes_eq (a b c d : Byte) :
    wordOfBytes a b c d = BitVec.ofNat 32 (a.toNat * 2 ^ 24 + b.toNat * 2 ^ 16 + c.toNat * 2 ^ 8 + d.toNat) := by
  apply BitVec.eq_of_toNat_eq
  have := a.isLt; have := b.isLt; have := c.isLt; have := d.isLt
  unfold wordOfBytes
  simp only [BitVec.toNat_append, BitVec.toNat_ofNat]
  rw [← Nat.shiftLeft_add_eq_or_of_lt b.isLt, ← Nat.shiftLeft_add_eq_or_of_lt c.isLt,
    ← Nat.shiftLeft_add_eq_or_of_lt d.isLt]
  simp only [Nat.shiftLeft_eq]
  rw [Nat.mod_eq_of_lt (by omega)]
  ring

/-! ### Steps -/

/-- A step performs the host's next action (20_memory R50). -/
theorem step_cons {s : State} {a : HostAction} {rest : List HostAction} (h : s.host = a :: rest) :
    step s = hostAction a { s with host := rest } := by simp [step, h]

/-- A read answers and changes nothing, or is a bus error (20_memory R52). -/
theorem memRead_cases (addr : Addr) (s : State) :
    (hostReg addr = none ∧ memRead addr s = s.busError) ∨
    ∃ r, hostReg addr = some r ∧ memRead addr s = s.reply (.value (s.readReg r)) := by
  unfold memRead; split
  · exact .inl ⟨‹_›, rfl⟩
  · exact .inr ⟨_, ‹_›, rfl⟩

/-- A write is a bus error, runs a command, or only stores (20_memory R53, R57). -/
theorem memWrite_cases (addr : Addr) (v : Word) (s : State) :
    memWrite addr v s = .next s.busError ∨
    (hostReg addr = some .cmd ∧ memWrite addr v s = runCommand v ((s.storeReg .cmd v).reply .ok)) ∨
    ∃ r, hostReg addr = some r ∧ r ≠ .cmd ∧ r.writable = true ∧
      memWrite addr v s = .next ((s.storeReg r v).reply .ok) := by
  unfold memWrite
  cases h : hostReg addr with
  | none => exact .inl rfl
  | some r =>
    by_cases hc : r = .cmd
    · subst hc; exact .inr (.inl ⟨rfl, rfl⟩)
    · have e : (match some r with
          | none => .next s.busError
          | some .cmd => runCommand v ((s.storeReg .cmd v).reply .ok)
          | some r => .next (if r.writable then (s.storeReg r v).reply .ok else s.busError)) =
          (.next (if r.writable then (s.storeReg r v).reply .ok else s.busError) :
            Host.Outcome State Fault Refusal) := by cases r <;> first | rfl | exact absurd rfl hc
      cases hw : r.writable with
      | false => left; rw [hw] at e; exact e
      | true => right; right; rw [hw] at e; exact ⟨r, rfl, hc, hw, e⟩

/-- A stored word leaves the model's own fields. -/
theorem storeReg_own (s : State) (r : HostReg) (v : Word) :
    (s.storeReg r v).host = s.host ∧ (s.storeReg r v).replies = s.replies ∧ (s.storeReg r v).dealKs = s.dealKs := by
  cases r <;> exact ⟨rfl, rfl, rfl⟩

/-- A command word runs a command or is aborted (30_encoding R85, R86). -/
theorem runCommand_cases (w : Word) (s : State) :
    (∃ i, decode w = .ok i ∧ runCommand w s = exec i s) ∨
    ((∃ e, decode w = .error e) ∧ runCommand w s = .next (s.flagError .illegalCommand)) := by
  unfold runCommand
  cases h : decode w with
  | ok i => exact .inl ⟨i, rfl, rfl⟩
  | error e => exact .inr ⟨⟨e, rfl⟩, rfl⟩

end Sys2Proof.Machine
end

