-- ==== Sys2Proof/Laws/Encoding.lean ====
section
/-! SUPPORT. The fields of a command word: a word is its fields, the fields of a word built from fields, and masking
field by field. -/

namespace Sys2Proof

/-- Bit 16 of a command word (30_encoding R81: reserved). -/
def bit16Field (w : Word) : BitVec 1 := w.extractLsb' 16 1

/-- A command word from its fields, bit 16 among them. -/
def joinFields (code : BitVec 6) (rd rs1 rs2 : BitVec 3) (b : BitVec 1) (imm : BitVec 16) : Word :=
  code ++ rd ++ rs1 ++ rs2 ++ b ++ imm

theorem fieldsWord_eq (code : BitVec 6) (rd rs1 rs2 : BufReg) (imm : BitVec 16) :
    fieldsWord code rd rs1 rs2 imm =
      joinFields code (BitVec.ofFin (w := 3) rd) (BitVec.ofFin (w := 3) rs1) (BitVec.ofFin (w := 3) rs2) 0#1 imm := rfl

/-- A word is OP, RD, RS1, RS2, bit 16 and IMM, in that order (30_encoding R81). -/
theorem word_eq_fields (w : Word) :
    w = joinFields (opField w) (w.extractLsb' 23 3) (w.extractLsb' 20 3) (w.extractLsb' 17 3) (bit16Field w)
      (immField w) := by
  apply BitVec.eq_of_getLsbD_eq
  intro i hi
  simp only [joinFields, opField, bit16Field, immField, BitVec.getLsbD_append, BitVec.getLsbD_extractLsb']
  repeat' split
  all_goals (rw [decide_eq_true (by omega), Bool.true_and]; congr 1; omega)

section
variable (code : BitVec 6) (rd rs1 rs2 : BitVec 3) (b : BitVec 1) (imm : BitVec 16)

/-- A bit-by-bit proof that a field of a joined word is that field. -/
theorem extract_joinFields {k n : Nat} {x : BitVec n}
    (h : ∀ i < n, (joinFields code rd rs1 rs2 b imm).getLsbD (k + i) = x.getLsbD i) :
    (joinFields code rd rs1 rs2 b imm).extractLsb' k n = x := by
  apply BitVec.eq_of_getLsbD_eq
  intro i hi
  simp [hi, h i hi]

@[simp] theorem op_joinFields : opField (joinFields code rd rs1 rs2 b imm) = code := by
  refine extract_joinFields _ _ _ _ _ _ fun i hi => ?_
  simp only [joinFields, BitVec.getLsbD_append]
  repeat' split
  all_goals first | omega | (congr 1; omega)

@[simp] theorem rd_joinFields : (joinFields code rd rs1 rs2 b imm).extractLsb' 23 3 = rd := by
  refine extract_joinFields _ _ _ _ _ _ fun i hi => ?_
  simp only [joinFields, BitVec.getLsbD_append]
  repeat' split
  all_goals first | omega | (congr 1; omega)

@[simp] theorem rs1_joinFields : (joinFields code rd rs1 rs2 b imm).extractLsb' 20 3 = rs1 := by
  refine extract_joinFields _ _ _ _ _ _ fun i hi => ?_
  simp only [joinFields, BitVec.getLsbD_append]
  repeat' split
  all_goals first | omega | (congr 1; omega)

@[simp] theorem rs2_joinFields : (joinFields code rd rs1 rs2 b imm).extractLsb' 17 3 = rs2 := by
  refine extract_joinFields _ _ _ _ _ _ fun i hi => ?_
  simp only [joinFields, BitVec.getLsbD_append]
  repeat' split
  all_goals first | omega | (congr 1; omega)

@[simp] theorem bit16_joinFields : bit16Field (joinFields code rd rs1 rs2 b imm) = b := by
  refine extract_joinFields _ _ _ _ _ _ fun i hi => ?_
  simp only [joinFields, BitVec.getLsbD_append]
  repeat' split
  all_goals first | omega | (congr 1; omega)

@[simp] theorem imm_joinFields : immField (joinFields code rd rs1 rs2 b imm) = imm := by
  refine extract_joinFields _ _ _ _ _ _ fun i hi => ?_
  simp only [joinFields, BitVec.getLsbD_append]
  repeat' split
  all_goals first | omega | (congr 1; omega)

/-- A masked word is its masked fields. -/
theorem joinFields_and (mc : BitVec 6) (m1 m2 m3 : BitVec 3) (mb : BitVec 1) (mi : BitVec 16) :
    joinFields code rd rs1 rs2 b imm &&& joinFields mc m1 m2 m3 mb mi =
      joinFields (code &&& mc) (rd &&& m1) (rs1 &&& m2) (rs2 &&& m3) (b &&& mb) (imm &&& mi) := by
  change (code ++ rd ++ rs1 ++ rs2 ++ b ++ imm) &&& (mc ++ m1 ++ m2 ++ m3 ++ mb ++ mi) =
    (code &&& mc) ++ (rd &&& m1) ++ (rs1 &&& m2) ++ (rs2 &&& m3) ++ (b &&& mb) ++ (imm &&& mi)
  simp only [BitVec.and_append]

end

/-- Words with equal fields only are equal. -/
theorem joinFields_inj {c c' : BitVec 6} {r r' s s' t t' : BitVec 3} {b b' : BitVec 1} {i i' : BitVec 16} :
    joinFields c r s t b i = joinFields c' r' s' t' b' i' ↔
      c = c' ∧ r = r' ∧ s = s' ∧ t = t' ∧ b = b' ∧ i = i' := by
  refine ⟨fun h => ?_, fun ⟨a, b, c, d, e, f⟩ => by rw [a, b, c, d, e, f]⟩
  exact ⟨by simpa using congrArg opField h, by simpa using congrArg (·.extractLsb' 23 3) h,
    by simpa using congrArg (·.extractLsb' 20 3) h, by simpa using congrArg (·.extractLsb' 17 3) h,
    by simpa using congrArg bit16Field h, by simpa using congrArg immField h⟩

@[simp] theorem op_fieldsWord (code : BitVec 6) (rd rs1 rs2 : BufReg) (imm : BitVec 16) :
    opField (fieldsWord code rd rs1 rs2 imm) = code := by simp [fieldsWord_eq]

@[simp] theorem rd_fieldsWord (code : BitVec 6) (rd rs1 rs2 : BufReg) (imm : BitVec 16) :
    rdField (fieldsWord code rd rs1 rs2 imm) = rd := by simp [fieldsWord_eq, rdField]

@[simp] theorem rs1_fieldsWord (code : BitVec 6) (rd rs1 rs2 : BufReg) (imm : BitVec 16) :
    rs1Field (fieldsWord code rd rs1 rs2 imm) = rs1 := by simp [fieldsWord_eq, rs1Field]

@[simp] theorem rs2_fieldsWord (code : BitVec 6) (rd rs1 rs2 : BufReg) (imm : BitVec 16) :
    rs2Field (fieldsWord code rd rs1 rs2 imm) = rs2 := by simp [fieldsWord_eq, rs2Field]

@[simp] theorem imm_fieldsWord (code : BitVec 6) (rd rs1 rs2 : BufReg) (imm : BitVec 16) :
    immField (fieldsWord code rd rs1 rs2 imm) = imm := by simp [fieldsWord_eq]

/-- The amount is the high half of IMM (30_encoding R83). -/
theorem amountField_eq (w : Word) : amountField w = (immField w).extractLsb' 8 8 := by
  apply BitVec.eq_of_getLsbD_eq
  intro i hi
  simp only [amountField, immField, BitVec.getLsbD_extractLsb']
  rw [decide_eq_true hi, decide_eq_true (by omega : 8 + i < 16)]; simp

/-- The width is the low half of IMM (30_encoding R83). -/
theorem widthField_eq (w : Word) : widthField w = (immField w).extractLsb' 0 8 := by
  apply BitVec.eq_of_getLsbD_eq
  intro i hi
  simp only [widthField, immField, BitVec.getLsbD_extractLsb']
  rw [decide_eq_true hi, decide_eq_true (by omega : 0 + i < 16)]; simp

/-- A round index below 32 has no bit above its five. -/
theorem desRound_masked {round : BitVec 16} (h : round.toNat ≤ 16) : round &&& 0xFFE0#16 = 0 := by
  have : ∀ k : Fin 17, BitVec.ofNat 16 k.val &&& 0xFFE0#16 = 0 := by decide
  simpa using this ⟨round.toNat, by omega⟩

/-- A round index below 8 has no bit above its three. -/
theorem dealRound_masked {round : BitVec 16} (h : round.toNat ≤ 6) : round &&& 0xFFF8#16 = 0 := by
  have : ∀ k : Fin 7, BitVec.ofNat 16 k.val &&& 0xFFF8#16 = 0 := by decide
  simpa using this ⟨round.toNat, by omega⟩

end Sys2Proof
end

