-- ==== Sys2Proof/Laws/PerInstr.lean ====
section
/-! SUPPORT. For every command: the word the encoder writes matches its own row of the opcode map (30_encoding R84), one
lemma a constructor. -/

namespace Sys2Proof.Laws

/-- The row of 30_encoding R84 that a command belongs to. -/
def opOf : Instr → Op
  | .xor .. => .xor | .split .. => .split | .join .. => .join | .perm .. => .perm | .rotl .. => .rotl
  | .desKey .. => .desKey | .desEnc .. => .desEnc | .desDec .. => .desDec | .desRk .. => .desRk | .desF .. => .desF
  | .desRnd .. => .desRnd | .desSbox .. => .desSbox
  | .dealKey .. => .dealKey | .dealEnc .. => .dealEnc | .dealDec .. => .dealDec | .dealRk .. => .dealRk
  | .dealF .. => .dealF | .dealRnd .. => .dealRnd
  | .clrErr => .clrErr

/-- A legal command's word matches its row of the opcode map: `(w AND mask) = match` (30_encoding R84). -/
def EncodeMatchesRow.Statement (i : Instr) : Prop := i.wf = true → encode i &&& (opOf i).mask = (opOf i).pattern

/-- The match column is the OP field with every other bit zero (30_encoding R84). -/
theorem pattern_eq (op : Op) : op.pattern = joinFields op.code 0 0 0 0 0 := by cases op <;> decide

theorem code_and_ones (code : BitVec 6) : code &&& 0x3F = code := by revert code; decide

/-- A word built from fields matches its row when each masked field is zero. -/
theorem matches_of_fields (op : Op) {rd rs1 rs2 : BufReg} {imm mi : BitVec 16} {m1 m2 m3 : BitVec 3}
    (hm : op.mask = joinFields 0x3F m1 m2 m3 1 mi)
    (h1 : BitVec.ofFin (w := 3) rd &&& m1 = 0) (h2 : BitVec.ofFin (w := 3) rs1 &&& m2 = 0)
    (h3 : BitVec.ofFin (w := 3) rs2 &&& m3 = 0) (hi : imm &&& mi = 0) :
    fieldsWord op.code rd rs1 rs2 imm &&& op.mask = op.pattern := by
  rw [hm, pattern_eq, fieldsWord_eq, joinFields_and, code_and_ones, h1, h2, h3, hi]
  rfl

namespace EncodeMatchesRow

/-- Format R3 (30_encoding R82). -/
theorem r3 (op : Op) (hm : op.mask = 0xFC01FFFF) (rd rs1 rs2 : BufReg) :
    fieldsWord op.code rd rs1 rs2 0 &&& op.mask = op.pattern :=
  matches_of_fields op (m1 := 0) (m2 := 0) (m3 := 0) (mi := 0xFFFF) (hm.trans (by decide)) (by simp) (by simp)
    (by simp) (by decide)

/-- Format R2 (30_encoding R82). -/
theorem r2 (op : Op) (hm : op.mask = 0xFC0FFFFF) (rd rs1 : BufReg) :
    fieldsWord op.code rd rs1 0 0 &&& op.mask = op.pattern :=
  matches_of_fields op (m1 := 0) (m2 := 0) (m3 := 7) (mi := 0xFFFF) (hm.trans (by decide)) (by simp) (by simp)
    (by decide) (by decide)

/-- Format R1 (30_encoding R82). -/
theorem r1 (op : Op) (hm : op.mask = 0xFF8FFFFF) (rs1 : BufReg) :
    fieldsWord op.code 0 rs1 0 0 &&& op.mask = op.pattern :=
  matches_of_fields op (m1 := 7) (m2 := 0) (m3 := 7) (mi := 0xFFFF) (hm.trans (by decide)) (by decide) (by simp)
    (by decide) (by decide)

/-- Format I with a DES round index (30_encoding R82, R83). -/
theorem desI (op : Op) (hm : op.mask = 0xFC0FFFE0) (rd rs1 : BufReg) {round : BitVec 16}
    (h : desRoundOk round = true) : fieldsWord op.code rd rs1 0 round &&& op.mask = op.pattern :=
  matches_of_fields op (m1 := 0) (m2 := 0) (m3 := 7) (mi := 0xFFE0) (hm.trans (by decide)) (by simp) (by simp)
    (by decide) (desRound_masked (by simp [desRoundOk] at h; omega))

/-- Format I with a DEAL round index (30_encoding R82, R83). -/
theorem dealI (op : Op) (hm : op.mask = 0xFC0FFFF8) (rd rs1 : BufReg) {round : BitVec 16}
    (h : dealRoundOk round = true) : fieldsWord op.code rd rs1 0 round &&& op.mask = op.pattern :=
  matches_of_fields op (m1 := 0) (m2 := 0) (m3 := 7) (mi := 0xFFF8) (hm.trans (by decide)) (by simp) (by simp)
    (by decide) (dealRound_masked (by simp [dealRoundOk] at h; omega))

theorem xor (rd rs1 rs2 : BufReg) : Statement (.xor rd rs1 rs2) := fun _ => r3 .xor rfl rd rs1 rs2

theorem split (rd rs1 rs2 : BufReg) : Statement (.split rd rs1 rs2) := fun _ => r3 .split rfl rd rs1 rs2

theorem join (rd rs1 rs2 : BufReg) : Statement (.join rd rs1 rs2) := fun _ => r3 .join rfl rd rs1 rs2

theorem perm (rd rs1 : BufReg) : Statement (.perm rd rs1) := fun _ => r2 .perm rfl rd rs1

theorem rotl (rd rs1 : BufReg) (amount width : BitVec 8) : Statement (.rotl rd rs1 amount width) := fun _ =>
  matches_of_fields .rotl (m1 := 0) (m2 := 0) (m3 := 7) (mi := 0) (by decide) (by simp) (by simp) (by decide) (by simp)

theorem desKey (rs1 : BufReg) : Statement (.desKey rs1) := fun _ => r1 .desKey rfl rs1

theorem desEnc (rd rs1 : BufReg) : Statement (.desEnc rd rs1) := fun _ => r2 .desEnc rfl rd rs1

theorem desDec (rd rs1 : BufReg) : Statement (.desDec rd rs1) := fun _ => r2 .desDec rfl rd rs1

theorem desRk (rd : BufReg) (round : BitVec 16) : Statement (.desRk rd round) := fun h =>
  matches_of_fields .desRk (m1 := 0) (m2 := 7) (m3 := 7) (mi := 0xFFE0) (by decide) (by simp) (by decide) (by decide) (desRound_masked (by simp [Instr.wf, desRoundOk] at h; omega))

theorem desF (rd rs1 : BufReg) (round : BitVec 16) : Statement (.desF rd rs1 round) := desI .desF rfl rd rs1

theorem desRnd (rd rs1 : BufReg) (round : BitVec 16) : Statement (.desRnd rd rs1 round) := desI .desRnd rfl rd rs1

theorem desSbox (rd rs1 : BufReg) : Statement (.desSbox rd rs1) := fun _ => r2 .desSbox rfl rd rs1

theorem dealKey (rs1 : BufReg) : Statement (.dealKey rs1) := fun _ => r1 .dealKey rfl rs1

theorem dealEnc (rd rs1 : BufReg) : Statement (.dealEnc rd rs1) := fun _ => r2 .dealEnc rfl rd rs1

theorem dealDec (rd rs1 : BufReg) : Statement (.dealDec rd rs1) := fun _ => r2 .dealDec rfl rd rs1

theorem dealRk (rd : BufReg) (round : BitVec 16) : Statement (.dealRk rd round) := fun h =>
  matches_of_fields .dealRk (m1 := 0) (m2 := 7) (m3 := 7) (mi := 0xFFF8) (by decide) (by simp) (by decide) (by decide) (dealRound_masked (by simp [Instr.wf, dealRoundOk] at h; omega))

theorem dealF (rd rs1 : BufReg) (round : BitVec 16) : Statement (.dealF rd rs1 round) := dealI .dealF rfl rd rs1

theorem dealRnd (rd rs1 : BufReg) (round : BitVec 16) : Statement (.dealRnd rd rs1 round) := dealI .dealRnd rfl rd rs1

theorem clrErr : Statement .clrErr := fun _ => by decide

end EncodeMatchesRow

end Sys2Proof.Laws
end

