-- ==== Sys2Proof/Laws/Decode.lean ====
section
/-! SUPPORT. The decoder: what a decoded word is, when a word matches its row, and what the encoder's words decode to
field by field. -/

namespace Sys2Proof.Laws

open Sys2Proof.Machine

theorem opOfCode_code (op : Op) : opOfCode op.code = some op := by cases op <;> rfl

theorem opOfCode_some {c : BitVec 6} {op : Op} (h : opOfCode c = some op) : c = op.code := by
  revert op; revert c; decide

/-- A word decodes exactly when it matches its row and is within the row's limits (30_encoding R86). -/
theorem decode_ok {w : Word} {i : Instr} : decode w = .ok i ↔
    ∃ op : Op, opField w = op.code ∧ w &&& op.mask = op.pattern ∧ checkLimits op w = .ok () ∧ i = op.operands w := by
  unfold decode
  constructor
  · intro h
    split at h
    · cases h
    · rename_i op ho
      split at h
      · split at h
        · cases h; exact ⟨op, opOfCode_some ho, ‹_›, ‹_›, rfl⟩
        · cases h
      · cases h
  · rintro ⟨op, ho, hm, hl, rfl⟩
    rw [ho, opOfCode_code]
    simp only
    rw [if_pos hm, hl]

/-- The limits of a row (30_encoding R85 (c), (d)), in the spec's numbers. -/
theorem checkLimits_iff (op : Op) (w : Word) : checkLimits op w = .ok () ↔
    (op.code ∈ [0x13, 0x14, 0x15] → roundIn 16 w) ∧ (op.code ∈ [0x23, 0x24, 0x25] → roundIn 6 w) ∧
    (op.code = 0x02 → rdOf w ≠ rs2Of w) := by
  cases op <;> simp [checkLimits, Op.code, roundIn, rdField, rs2Field, rdOf, rs2Of, -BitVec.extractLsb'_toNat]
  all_goals exact Iff.rfl

/-- A word matches its row when its OP is the row's and each masked field is zero. -/
theorem matches_iff_fields {w : Word} {op : Op} {m1 m2 m3 : BitVec 3} {mi : BitVec 16}
    (hm : op.mask = joinFields 0x3F m1 m2 m3 1 mi) :
    w &&& op.mask = op.pattern ↔ opField w = op.code ∧ w.extractLsb' 23 3 &&& m1 = 0 ∧ w.extractLsb' 20 3 &&& m2 = 0 ∧
      w.extractLsb' 17 3 &&& m3 = 0 ∧ bit16Field w &&& 1 = 0 ∧ immField w &&& mi = 0 := by
  conv_lhs => rw [hm, pattern_eq, word_eq_fields w, joinFields_and, joinFields_inj, code_and_ones]

/-- A word under a mask of fields is zero when each masked field is. -/
theorem masked_zero_iff {w mz : Word} {m1 m2 m3 : BitVec 3} {mi : BitVec 16} (hm : mz = joinFields 0 m1 m2 m3 1 mi) :
    w &&& mz = 0 ↔ w.extractLsb' 23 3 &&& m1 = 0 ∧ w.extractLsb' 20 3 &&& m2 = 0 ∧ w.extractLsb' 17 3 &&& m3 = 0 ∧
      bit16Field w &&& 1 = 0 ∧ immField w &&& mi = 0 := by
  have h0 : (0 : Word) = joinFields 0 0 0 0 0 0 := by decide
  conv_lhs => rw [hm, h0, word_eq_fields w, joinFields_and, joinFields_inj]
  simp

theorem op_encode (i : Instr) : opField (encode i) = (opOf i).code := by cases i <;> simp [encode, opOf]

theorem append_hi (a b : BitVec 8) : (a ++ b).extractLsb' 8 8 = a := by
  apply BitVec.eq_of_getLsbD_eq
  intro i hi
  rw [BitVec.getLsbD_extractLsb', BitVec.getLsbD_append, decide_eq_true hi, if_neg (by omega)]
  simp

theorem append_lo (a b : BitVec 8) : (a ++ b).extractLsb' 0 8 = b := by
  apply BitVec.eq_of_getLsbD_eq
  intro i hi
  rw [BitVec.getLsbD_extractLsb', BitVec.getLsbD_append, decide_eq_true hi, if_pos (by omega)]
  simp

theorem hi_append_lo (x : BitVec 16) : x.extractLsb' 8 8 ++ x.extractLsb' 0 8 = x := by
  apply BitVec.eq_of_getLsbD_eq
  intro i hi
  rw [BitVec.getLsbD_append, BitVec.getLsbD_extractLsb', BitVec.getLsbD_extractLsb']
  split
  · rw [decide_eq_true ‹_›]; simp
  · rw [decide_eq_true (by omega), show 8 + (i - 8) = i by omega]; simp

/-- The operand fields of an encoded command are its operands. -/
theorem operands_encode (i : Instr) : (opOf i).operands (encode i) = i := by
  cases i <;> simp [encode, opOf, Op.operands, amountField_eq, widthField_eq, append_hi, append_lo]

theorem checkLimits_encode (i : Instr) (h : i.wf = true) : checkLimits (opOf i) (encode i) = .ok () := by
  cases i <;> simp_all [encode, opOf, checkLimits, Instr.wf, desRoundOk, dealRoundOk]

/-- What a command word of a row does, by whether it is legal (30_encoding R85, R86). -/
theorem runCommand_row (op : Op) (w : Word) (s : State) (h : opField w = op.code) :
    (w &&& op.mask = op.pattern → checkLimits op w = .ok () → runCommand w s = exec (op.operands w) s) ∧
    (¬(w &&& op.mask = op.pattern ∧ checkLimits op w = .ok ()) →
      runCommand w s = .next (s.flagError .illegalCommand)) := by
  unfold runCommand decode
  rw [h, opOfCode_code]
  constructor
  · intro h1 h2
    simp only
    rw [if_pos h1, h2]
  · intro hn
    simp only
    by_cases h1 : w &&& op.mask = op.pattern
    · rw [if_pos h1]
      cases hc : checkLimits op w with
      | ok u => exact absurd ⟨h1, by rw [hc]⟩ hn
      | error e => rfl
    · rw [if_neg h1]; rfl

end Sys2Proof.Laws
end

