-- ==== Sys2Proof/Laws/Feistel.lean ====
section
/-! SUPPORT. The halves of a block, as bit vectors and as byte strings. -/

namespace Sys2Proof.Machine

@[simp] theorem leftHalf_append {h : Nat} (l r : BitVec h) : leftHalf (l ++ r) = l := by
  apply BitVec.eq_of_getLsbD_eq
  intro i hi
  rw [leftHalf, BitVec.getLsbD_extractLsb', BitVec.getLsbD_append, decide_eq_true hi, if_neg (by omega)]
  simp

@[simp] theorem rightHalf_append {h : Nat} (l r : BitVec h) : rightHalf (l ++ r) = r := by
  apply BitVec.eq_of_getLsbD_eq
  intro i hi
  rw [rightHalf, BitVec.getLsbD_extractLsb', BitVec.getLsbD_append, decide_eq_true hi, if_pos (by omega)]
  simp

/-- A block is its two halves (41_feistel R141). -/
theorem halves_append {h : Nat} (x : BitVec (h + h)) : leftHalf x ++ rightHalf x = x := by
  apply BitVec.eq_of_getLsbD_eq
  intro i hi
  rw [BitVec.getLsbD_append, leftHalf, rightHalf, BitVec.getLsbD_extractLsb', BitVec.getLsbD_extractLsb']
  split
  · rw [decide_eq_true ‹_›]; simp
  · rw [decide_eq_true (by omega), show h + (i - h) = i by omega]; simp

/-- Rounds compose. -/
theorem feistelRounds_append {h : Nat} {κ : Type} (f : BitVec h → κ → BitVec h) (ks ks' : List κ) (l r : BitVec h) :
    feistelRounds f (ks ++ ks') l r =
      feistelRounds f ks' (feistelRounds f ks l r).1 (feistelRounds f ks l r).2 := by
  induction ks generalizing l r with
  | nil => rfl
  | cons k ks ih => simp only [List.cons_append, feistelRounds]; exact ih _ _

theorem bytesBE_add (v m n : Nat) : bytesBE v (m + n) = bytesBE (v / 256 ^ n) m ++ bytesBE v n := by
  induction m with
  | zero => simp [bytesBE]
  | succ m ih =>
    rw [Nat.succ_add, bytesBE, ih, bytesBE, List.cons_append, Nat.div_div_eq_div_mul, ← pow_add, Nat.add_comm n m]

/-- The bytes of a block are those of its halves. -/
theorem bytesOf_append {h : Nat} (hh : 8 * (h / 8) = h) (a b : BitVec h) :
    bytesOf (a ++ b) = bytesOf a ++ bytesOf b := by
  have e : (256 : Nat) ^ (h / 8) = 2 ^ h := by rw [show (256 : Nat) = 2 ^ 8 from rfl, ← pow_mul, hh]
  unfold bytesOf
  rw [show (h + h) / 8 = h / 8 + h / 8 by omega, bytesBE_add, BitVec.toNat_append, e,
    ← Nat.shiftLeft_add_eq_or_of_lt b.isLt, Nat.shiftLeft_eq]
  congr 1
  · rw [Nat.add_comm, Nat.add_mul_div_right _ _ (by positivity), Nat.div_eq_of_lt b.isLt, Nat.zero_add]
  · rw [← bytesBE_mod, e, Nat.add_comm, Nat.add_mul_mod_self_right, ← e, bytesBE_mod]

/-- The halves of a byte string's block are the blocks of its byte halves (43_deal R220). -/
theorem halves_bitsOf {n : Nat} {b : Bytes} (hb : b.length = n + n) :
    leftHalf (h := 8 * n) (bitsOf (8 * n + 8 * n) b) = bitsOf (8 * n) (b.take n) ∧
    rightHalf (h := 8 * n) (bitsOf (8 * n + 8 * n) b) = bitsOf (8 * n) (b.drop n) := by
  have h := val_append (b.take n) (b.drop n)
  rw [List.take_append_drop, List.length_drop, hb, show n + n - n = n by omega, show (256 : Nat) = 2 ^ 8 from rfl,
    ← pow_mul] at h
  have h1 := val_lt (b.take n)
  have h2 := val_lt (b.drop n)
  rw [List.length_take, hb, show min n (n + n) = n by omega, show (256 : Nat) = 2 ^ 8 from rfl, ← pow_mul] at h1
  rw [List.length_drop, hb, show n + n - n = n by omega, show (256 : Nat) = 2 ^ 8 from rfl, ← pow_mul] at h2
  have h3 : val b < 2 ^ (8 * n + 8 * n) := by rw [pow_add]; nlinarith
  constructor
  · apply BitVec.eq_of_toNat_eq
    simp only [leftHalf, bitsOf, BitVec.extractLsb'_toNat, BitVec.toNat_ofNat, Nat.shiftRight_eq_div_pow]
    rw [Nat.mod_eq_of_lt h3, h, Nat.add_comm, Nat.add_mul_div_right _ _ (by positivity), Nat.div_eq_of_lt h2,
      Nat.zero_add]
  · apply BitVec.eq_of_toNat_eq
    simp only [rightHalf, bitsOf, BitVec.extractLsb'_toNat, BitVec.toNat_ofNat, Nat.shiftRight_zero]
    rw [Nat.mod_eq_of_lt h3, h, Nat.add_comm, Nat.add_mul_mod_self_right]

end Sys2Proof.Machine
end

