-- ==== Sys2Proof/Laws/Kernel.lean ====
section
/-! SUPPORT. The kernel's functions as bit strings and integers. -/

namespace Sys2Proof.Machine

theorem getD_xorBuf (a b : Bytes) {i : Nat} (hi : i < a.length) (hl : a.length = b.length) :
    (xorBuf a b).getD i 0 = a.getD i 0 ^^^ b.getD i 0 := by
  simp [xorBuf, List.getD_eq_getElem?_getD, hi, hl ▸ hi]

theorem bitM_xorBuf {a b : Bytes} (hl : a.length = b.length) {j : Nat} (hj : j < 8 * a.length) :
    bitM (xorBuf a b) j = (bitM a j ^^ bitM b j) := by
  rw [bitM, getD_xorBuf a b (by omega) hl, BitVec.getLsbD_xor]; rfl

theorem bytesOf_xor {w : Nat} (hw : 8 * (w / 8) = w) (x y : BitVec w) :
    bytesOf (x ^^^ y) = xorBuf (bytesOf x) (bytesOf y) := by
  apply bytes_ext
  · simp [length_xorBuf]
  · intro j hj
    rw [length_bytesOf, hw] at hj
    rw [bitM_xorBuf (by simp) (by rw [length_bytesOf, hw]; exact hj), bitM_bytesOf _ hw hj, bitM_bytesOf _ hw hj,
      bitM_bytesOf _ hw hj, BitVec.getMsbD_xor]

/-- The bits a table selects, when every entry is within the source (40_kernel R106). -/
theorem permuteBits_some {src : Bytes} {off : Int} {dir : Direction} {table : List Nat}
    (h : ∀ x ∈ table, 0 ≤ (x : Int) + off ∧ (x : Int) + off < 8 * (src.length : Int)) :
    permuteBits src off dir table = some (table.map fun x => match dir with
      | .msbFirst => bitM src ((x : Int) + off).toNat
      | .lsbFirst => bitL src ((x : Int) + off).toNat) := by
  cases dir
  all_goals
    induction table with
    | nil => rfl
    | cons e t ih =>
      unfold permuteBits
      have h1 := h e (by simp)
      rw [ih (fun x hx => h x (by simp [hx]))]
      simp only [selectBit]
      rw [if_neg (by omega)]
      rfl

/-- One entry outside the source is enough to fail (40_kernel R106). -/
theorem permuteBits_none {src : Bytes} {off : Int} {dir : Direction} {table : List Nat}
    (h : ∃ x ∈ table, (x : Int) + off < 0 ∨ 8 * (src.length : Int) ≤ (x : Int) + off) :
    permuteBits src off dir table = none := by
  induction table with
  | nil => simp at h
  | cons e t ih =>
    obtain ⟨x, hx, hb⟩ := h
    unfold permuteBits
    rcases List.mem_cons.1 hx with rfl | hx
    · rw [show selectBit src off dir x = none by simp only [selectBit]; rw [if_pos hb]]
    · rw [ih ⟨x, hx, hb⟩]
      cases selectBit src off dir e <;> rfl

/-- A bit of the rotated low field. -/
theorem testBit_rot {low k w : Nat} (hl : low < 2 ^ w) (hk : k < w) {j : Nat} (hj : j < w) :
    ((low * 2 ^ k + low / 2 ^ (w - k)) % 2 ^ w).testBit j = low.testBit ((j + (w - k)) % w) := by
  rw [Nat.testBit_mod_two_pow, decide_eq_true hj, Bool.true_and]
  have hd : low / 2 ^ (w - k) < 2 ^ k := by
    apply Nat.div_lt_of_lt_mul; rw [← pow_add]; rwa [show w - k + k = w by omega]
  rw [Nat.mul_comm, Nat.testBit_two_pow_mul_add _ hd]
  split
  · rw [Nat.testBit_div_two_pow, Nat.mod_eq_of_lt (by omega), Nat.add_comm]
  · congr 1
    rw [show j + (w - k) = (j - k) + w by omega, Nat.add_mod_right, Nat.mod_eq_of_lt (by omega)]

/-- `rotlLow` as an integer: the bits above the field, then the rotated field (40_kernel R112). -/
theorem val_rotlLow (src : Bytes) (s w : Nat) (hw : w ≤ 8 * src.length) :
    val (rotlLow src s w) = 2 ^ w * (val src / 2 ^ w) +
      ((val src % 2 ^ w) * 2 ^ (s % w) + (val src % 2 ^ w) / 2 ^ (w - s % w)) % 2 ^ w := by
  unfold rotlLow
  simp only
  rw [val_bytesBE]
  have e : val src - val src % 2 ^ w = 2 ^ w * (val src / 2 ^ w) := by
    have := Nat.div_add_mod (val src) (2 ^ w); omega
  rw [e]
  apply Nat.mod_eq_of_lt
  have hv := val_lt src
  have hr : ((val src % 2 ^ w) * 2 ^ (s % w) + (val src % 2 ^ w) / 2 ^ (w - s % w)) % 2 ^ w < 2 ^ w :=
    Nat.mod_lt _ (by positivity)
  have hp : (256 : Nat) ^ src.length = 2 ^ w * 2 ^ (8 * src.length - w) := by
    rw [show (256 : Nat) = 2 ^ 8 from rfl, ← pow_mul, ← pow_add]; congr 1; omega
  rw [hp] at hv ⊢
  have hq : val src / 2 ^ w < 2 ^ (8 * src.length - w) := Nat.div_lt_of_lt_mul hv
  calc _ < 2 ^ w * (val src / 2 ^ w) + 2 ^ w := by omega
    _ = 2 ^ w * (val src / 2 ^ w + 1) := by ring
    _ ≤ _ := Nat.mul_le_mul_left _ hq

end Sys2Proof.Machine
end

