-- ==== Sys2Proof/Laws/Memory.lean ====
section
/-! SUPPORT. The table memory: reading after writing, and the canonical form that every operation keeps. -/

namespace Sys2Proof.Machine

theorem Memory.put_keys {m : Memory} {a : Nat} {o : Option Byte} {c : Host.Cell} (h : c ∈ m.put a o) :
    c ∈ m ∨ (c.1 = a ∧ o = some c.2) := by
  induction m with
  | nil => cases o <;> simp_all [Memory.put]
  | cons e m ih =>
    obtain ⟨k, w⟩ := e
    unfold Memory.put at h
    split at h
    · rcases List.mem_cons.1 h with rfl | h
      · simp
      · rcases ih h with h | h <;> simp [h]
    · split at h <;> cases o <;> simp_all <;> aesop

theorem Memory.put_rising {m : Memory} (a : Nat) (o : Option Byte) (h : m.Pairwise (fun x y => x.1 < y.1)) :
    (m.put a o).Pairwise (fun x y => x.1 < y.1) := by
  induction m with
  | nil => cases o <;> simp [Memory.put]
  | cons e m ih =>
    obtain ⟨k, w⟩ := e
    obtain ⟨h1, h2⟩ := List.pairwise_cons.1 h
    unfold Memory.put
    split
    · refine List.pairwise_cons.2 ⟨fun c hc => ?_, ih h2⟩
      rcases Memory.put_keys hc with hc | ⟨hc, -⟩
      · exact h1 c hc
      · simpa [hc] using ‹k < a›
    · split
      · subst k
        cases o with
        | none => simpa using h2
        | some v => simpa [List.pairwise_cons] using ⟨fun a b hc => h1 (a, b) hc, h2⟩
      · have hlt : a < k := by omega
        cases o with
        | none => simpa using h
        | some v =>
          have : ∀ c ∈ m, a < c.1 := fun c hc => lt_trans hlt (h1 c hc)
          simpa [List.pairwise_cons, hlt, h2] using
            ⟨fun x y hc => this (x, y) hc, fun x y hc => h1 (x, y) hc⟩

/-- A write keeps the canonical form. -/
theorem Memory.write_wf {m : Memory} (h : m.wf) (a : Nat) (v : Byte) : (m.write a v).wf := by
  unfold Memory.write
  split
  · refine ⟨Memory.put_rising _ _ h.1, fun c hc => ?_⟩
    rcases Memory.put_keys hc with hc | ⟨ha, hv⟩
    · exact h.2 c hc
    · split at hv
      · cases hv
      · cases hv; subst ha; exact ⟨‹_›, ‹_›⟩
  · exact h

theorem Memory.writeWord_wf {m : Memory} (h : m.wf) (a : Nat) (v : Word) : (m.writeWord a v).wf :=
  Memory.write_wf (Memory.write_wf (Memory.write_wf (Memory.write_wf h _ _) _ _) _ _) _ _

theorem Memory.find_eq_none {m : Memory} {a : Nat} (h : ∀ c ∈ m, c.1 ≠ a) : m.find a = none := by
  induction m with
  | nil => rfl
  | cons e m ih =>
    obtain ⟨k, w⟩ := e
    simp only [List.mem_cons, forall_eq_or_imp] at h
    simp [Memory.find, h.1, ih h.2]

theorem Memory.find_put_self {m : Memory} (a : Nat) (o : Option Byte) (h : m.Pairwise (fun x y => x.1 < y.1)) :
    (m.put a o).find a = o := by
  induction m with
  | nil => cases o <;> simp [Memory.put, Memory.find]
  | cons e m ih =>
    obtain ⟨k, w⟩ := e
    obtain ⟨h1, h2⟩ := List.pairwise_cons.1 h
    unfold Memory.put
    split
    · simpa [Memory.find, show k ≠ a by omega] using ih h2
    · cases o with
      | some v => split <;> simp [Memory.find]
      | none =>
        split
        · subst k
          simpa using Memory.find_eq_none fun c hc => (Nat.ne_of_gt (h1 c hc))
        · refine Memory.find_eq_none fun c hc => ?_
          rcases List.mem_cons.1 (by simpa using hc) with rfl | hc
          · assumption
          · have := h1 c hc; simp only at this; omega

theorem Memory.find_put_ne {m : Memory} {a b : Nat} (o : Option Byte) (h : b ≠ a) : (m.put a o).find b = m.find b := by
  have hn : ∀ m' : Memory, Memory.find ((o.map (a, ·)).toList ++ m') b = m'.find b := by
    intro m'; cases o <;> simp [Memory.find, h.symm]
  induction m with
  | nil => cases o <;> simp [Memory.put, Memory.find, h.symm]
  | cons e m ih =>
    obtain ⟨k, w⟩ := e
    unfold Memory.put
    split
    · simp [Memory.find, ih]
    · split
      · subst k; simp [hn, Memory.find, h.symm]
      · simp [hn]

/-- Table ROM reads the same in every memory. -/
theorem Memory.read_rom (m : Memory) {a : Nat} (h : 0x100 ≤ a) : m.read a = romEntry a := by
  simp [Memory.read, Memory.unlisted, Nat.not_lt.2 h]

/-- Reading a table RAM entry after writing it gives the byte written. -/
theorem Memory.read_write_self {m : Memory} (hm : m.wf) {a : Nat} (ha : a < 0x100) (v : Byte) :
    (m.write a v).read a = v := by
  rw [Memory.read, Memory.write, if_pos ha, if_pos ha, Memory.find_put_self _ _ hm.1]
  split <;> simp_all

/-- A write leaves every other entry alone. -/
theorem Memory.read_write_ne (m : Memory) {a b : Nat} (h : b ≠ a) (v : Byte) : (m.write a v).read b = m.read b := by
  unfold Memory.write
  split
  · simp only [Memory.read, Memory.find_put_ne _ h]
  · rfl

/-- The four entries of a written word, and every other entry. -/
theorem Memory.read_writeWord {m : Memory} (hm : m.wf) {a : Nat} (ha : a + 3 < 0x100) (v : Word) (b : Nat) :
    (m.writeWord a v).read b = if a ≤ b ∧ b < a + 4 then wordByte v (b - a) else m.read b := by
  have h1 := Memory.write_wf hm a (wordByte v 0)
  have h2 := Memory.write_wf h1 (a + 1) (wordByte v 1)
  have h3 := Memory.write_wf h2 (a + 2) (wordByte v 2)
  unfold Memory.writeWord
  by_cases e3 : b = a + 3
  · subst e3; rw [Memory.read_write_self h3 ha]; simp
  rw [Memory.read_write_ne _ e3]
  by_cases e2 : b = a + 2
  · subst e2; rw [Memory.read_write_self h2 (by omega)]; simp
  rw [Memory.read_write_ne _ e2]
  by_cases e1 : b = a + 1
  · subst e1; rw [Memory.read_write_self h1 (by omega)]; simp
  rw [Memory.read_write_ne _ e1]
  by_cases e0 : b = a
  · subst e0; rw [Memory.read_write_self hm (by omega)]; simp
  rw [Memory.read_write_ne _ e0, if_neg (by omega)]

/-- The memory of the reset state is in canonical form. -/
theorem reset_tbl_wf : State.reset.tbl.wf := by decide

end Sys2Proof.Machine
end

