-- ==== Sys2Proof/Tests/Slice0.lean ====
section
/-! SUPPORT. Tests: the checks of well-formedness, words written out from the spec's encodings, one step of each command
on the spec's own vectors (95_test_vectors, V<n>), and a witness for the hypotheses of every statement. -/

namespace Sys2Proof.Tests

open Sys2Proof Sys2Proof.Machine

-- one theorem at a time: many slow evaluations at once need more memory than the check gives
set_option Elab.async false

/-! ### Well-formedness refuses each ill-formed term (30_encoding R83, R85) -/

theorem test_wf_split_same_destination : (Instr.split 3 0 3).wf = false ∧ (Instr.split 3 0 4).wf = true := by decide

theorem test_wf_des_round :
    (Instr.desRk 0 0).wf = false ∧ (Instr.desRk 0 17).wf = false ∧ (Instr.desF 0 1 0).wf = false ∧
    (Instr.desF 0 1 17).wf = false ∧ (Instr.desRnd 0 1 0).wf = false ∧ (Instr.desRnd 0 1 17).wf = false ∧
    (Instr.desRk 0 1).wf = true ∧ (Instr.desF 0 1 16).wf = true ∧ (Instr.desRnd 0 1 16).wf = true := by decide

theorem test_wf_deal_round :
    (Instr.dealRk 0 0).wf = false ∧ (Instr.dealRk 0 7).wf = false ∧ (Instr.dealF 0 1 0).wf = false ∧
    (Instr.dealF 0 1 7).wf = false ∧ (Instr.dealRnd 0 1 0).wf = false ∧ (Instr.dealRnd 0 1 7).wf = false ∧
    (Instr.dealRk 0 1).wf = true ∧ (Instr.dealF 0 1 6).wf = true ∧ (Instr.dealRnd 0 1 6).wf = true := by decide

/-! ### Decoding: OP, RD, RS1, RS2, bit 16 and IMM written out bit by bit (30_encoding R81 to R84) -/

theorem test_decode_xor : decode 0b000001_101_010_110_0_0000000000000000 = .ok (.xor 5 2 6) := by decide
theorem test_decode_split : decode 0b000010_001_100_111_0_0000000000000000 = .ok (.split 1 4 7) := by decide
theorem test_decode_join : decode 0b000011_110_001_011_0_0000000000000000 = .ok (.join 6 1 3) := by decide
theorem test_decode_perm : decode 0b000100_011_101_000_0_0000000000000000 = .ok (.perm 3 5) := by decide
theorem test_decode_rotl : decode 0b000101_111_010_000_0_10100101_00011100 = .ok (.rotl 7 2 0xA5 28) := by decide
theorem test_decode_desKey : decode 0b010000_000_110_000_0_0000000000000000 = .ok (.desKey 6) := by decide
theorem test_decode_desEnc : decode 0b010001_100_011_000_0_0000000000000000 = .ok (.desEnc 4 3) := by decide
theorem test_decode_desDec : decode 0b010010_010_111_000_0_0000000000000000 = .ok (.desDec 2 7) := by decide
theorem test_decode_desRk : decode 0b010011_101_000_000_0_0000000000010000 = .ok (.desRk 5 16) := by decide
theorem test_decode_desF : decode 0b010100_001_110_000_0_0000000000001001 = .ok (.desF 1 6 9) := by decide
theorem test_decode_desRnd : decode 0b010101_110_101_000_0_0000000000000001 = .ok (.desRnd 6 5 1) := by decide
theorem test_decode_desSbox : decode 0b010110_011_100_000_0_0000000000000000 = .ok (.desSbox 3 4) := by decide
theorem test_decode_dealKey : decode 0b100000_000_101_000_0_0000000000000000 = .ok (.dealKey 5) := by decide
theorem test_decode_dealEnc : decode 0b100001_010_001_000_0_0000000000000000 = .ok (.dealEnc 2 1) := by decide
theorem test_decode_dealDec : decode 0b100010_111_110_000_0_0000000000000000 = .ok (.dealDec 7 6) := by decide
theorem test_decode_dealRk : decode 0b100011_100_000_000_0_0000000000000110 = .ok (.dealRk 4 6) := by decide
theorem test_decode_dealF : decode 0b100100_011_010_000_0_0000000000000011 = .ok (.dealF 3 2 3) := by decide
theorem test_decode_dealRnd : decode 0b100101_101_100_000_0_0000000000000101 = .ok (.dealRnd 5 4 5) := by decide
theorem test_decode_clrErr : decode 0b111111_000_000_000_0_0000000000000000 = .ok .clrErr := by decide

/-- R85 (a): reserved OP values, the first and last of each gap. -/
theorem test_decode_reserved :
    decode 0x00000000 = .error .reservedOpcode ∧ decode 0x18000000 = .error .reservedOpcode ∧
    decode 0x3C000000 = .error .reservedOpcode ∧ decode 0x5C000000 = .error .reservedOpcode ∧
    decode 0x7C000000 = .error .reservedOpcode ∧ decode 0x98000000 = .error .reservedOpcode ∧
    decode 0xF8000000 = .error .reservedOpcode := by decide

/-- R85 (b): V6, V72, V89, V91, and the unused register fields of the other formats. -/
theorem test_decode_must_be_zero :
    decode 0x05020001 = .error .mustBeZero ∧ decode 0x40800000 = .error .mustBeZero ∧
    decode 0xFC000001 = .error .mustBeZero ∧ decode 0x04010000 = .error .mustBeZero ∧
    decode 0x10820000 = .error .mustBeZero ∧ decode 0x14820108 = .error .mustBeZero ∧
    decode 0x4D900001 = .error .mustBeZero ∧ decode 0x50820001 = .error .mustBeZero ∧
    decode 0xFC800000 = .error .mustBeZero := by decide

/-- R85 (c): V57, V58, V85, and a round index above the mask's bits, which is illegal for its mask (R84). -/
theorem test_decode_round_index :
    decode 0x4D800000 = .error .roundIndex ∧ decode 0x4D800011 = .error .roundIndex ∧
    decode 0x8D800007 = .error .roundIndex ∧ decode 0x8D800000 = .error .roundIndex ∧
    decode 0x4D800020 = .error .mustBeZero := by decide

/-- R85 (d): V13. -/
theorem test_decode_split_same_dest : decode 0x08820000 = .error .splitSameDest := by decide

/-- The word of `decodeTableWord` and of `withFetchWord` is the command word. -/
theorem test_decodeTableWord :
    decodeTableWord 32 0x05020000 = some (.xor 2 0 1) ∧ decodeTableWord 32 0x4D800000 = none := by decide

/-! ### One step of each command, with the spec's vectors -/

/-- Reset, with these byte strings in B0 and B1. -/
def start (b0 b1 : Bytes) : State := (State.reset.writeBuf 0 b0).writeBuf 1 b1

/-- The state after the step that executes this command word. -/
def after (w : Nat) (s : State) : Option State :=
  match step (s.withFetchWord 32 w) with
  | .next t => some t
  | _ => none

/-- A buffer register's bytes and ERR after the step that executes this command word. -/
def result (w : Nat) (n : BufReg) (s : State) : Option (Bytes × BitVec 4) :=
  (after w s).map fun t => (t.bufs[n].bytes, t.err)

/-- V1. -/
theorem test_xor : result 0x05020000 2 (start [0xF0, 0x0F] [0xFF, 0xFF]) = some ([0x0F, 0xF0], 0) := by decide +kernel

/-- V4: lengths differ. -/
theorem test_xor_lengths : result 0x05020000 2 (start [0xF0, 0x0F] [0xFF]) = some ([], 1) := by decide +kernel

/-- V9: an odd length, halves right-aligned, in both destinations. -/
theorem test_split : result 0x08840000 1 (start [0xAB, 0xCD, 0xEF] []) = some ([0x0A, 0xBC], 0) ∧
    result 0x08840000 2 (start [0xAB, 0xCD, 0xEF] []) = some ([0x0D, 0xEF], 0) := by decide +kernel

/-- V11: the source is also the left destination. -/
theorem test_split_source_destination :
    result 0x08020000 0 (start [1, 2, 3, 4, 5, 6, 7, 8] []) = some ([1, 2, 3, 4], 0) ∧
    result 0x08020000 1 (start [1, 2, 3, 4, 5, 6, 7, 8] []) = some ([5, 6, 7, 8], 0) := by decide +kernel

/-- The order of V14 (`JOIN B0, B1, B0`): the first source comes first, and the destination is also the second. -/
theorem test_join : result 0x0C100000 0 (start [0x89, 0xAB] [0x01, 0x23]) = some ([0x01, 0x23, 0x89, 0xAB], 0) := by
  decide +kernel

/-- V17: the result would have 18 bytes. -/
theorem test_join_too_long : result 0x0D020000 2 (start (List.replicate 9 0) (List.replicate 9 0)) = some ([], 1) := by
  decide +kernel

/-- V21: IP from the table ROM, offset -1. -/
theorem test_perm :
    result 0x10800000 1 { start [0x01, 0x23, 0x45, 0x67, 0x89, 0xAB, 0xCD, 0xEF] [] with pcfg := 0x010040FF } =
      some ([0xCC, 0x00, 0xCC, 0xFF, 0xF0, 0xAA, 0xF0, 0xAA], 0) := by decide +kernel

/-- V29 and V32: DIR = 1 counts from the last byte, and entry 8 is outside a one-byte source. -/
theorem test_perm_direction :
    result 0x10800000 1 { start [0x01, 0x02] [] with tbl := [(0, 8)], pcfg := 0x80000100 } = some ([0x80], 0) ∧
    result 0x10800000 1 { start [0x00] [] with tbl := [(0, 8)], pcfg := 0x00000100 } = some ([], 2) := by decide +kernel

/-- V37: a 28-bit half in four bytes, the top four bits kept. -/
theorem test_rotl : result 0x1480011C 1 (start [0x0F, 0x00, 0x00, 0x01] []) = some ([0x0E, 0x00, 0x00, 0x03], 0) := by
  decide +kernel

/-- V42 and V43: width 0, and width above the source. -/
theorem test_rotl_width : result 0x14800000 1 (start [0x12, 0x34] []) = some ([], 1) ∧
    result 0x14800111 1 (start [0x12, 0x34] []) = some ([], 1) := by decide +kernel

/-- V55 and V56: round keys 1 and 16 after DES_KEY. -/
theorem test_desKey :
    (after 0x40000000 (start [0x13, 0x34, 0x57, 0x79, 0x9B, 0xBC, 0xDF, 0xF1] [])).map
      (fun t => (t.dks[0], t.dks[15], t.dkv, t.err)) = some (0x1B02EFFC7072, 0xCB3D8B0E17F5, true, 0) := by decide +kernel

/-- V69: a 7-byte key; nothing is loaded. -/
theorem test_desKey_length :
    (after 0x40000000 (start (List.replicate 7 0) [])).map (fun t => (t.dkv, t.err, t.anyErr)) = some (false, 1, true) := by
  decide +kernel

/-- A loaded DES key: that of V49. -/
def desLoaded (b0 : Bytes) : State := { start b0 [] with dks := desKS 0x133457799BBCDFF1, dkv := true }

/-- V49. -/
theorem test_desEnc : result 0x44800000 1 (desLoaded [0x01, 0x23, 0x45, 0x67, 0x89, 0xAB, 0xCD, 0xEF]) =
    some ([0x85, 0xE8, 0x13, 0x54, 0x0F, 0x0A, 0xB4, 0x05], 0) := by decide +kernel

/-- V66 and V68: no key, and a 7-byte block. -/
theorem test_desEnc_errors : result 0x44800000 1 (start (List.replicate 8 0) []) = some ([], 4) ∧
    result 0x44800000 1 (desLoaded (List.replicate 7 0)) = some ([], 1) := by decide +kernel

/-- V50. -/
theorem test_desDec : result 0x48800000 1 (desLoaded [0x85, 0xE8, 0x13, 0x54, 0x0F, 0x0A, 0xB4, 0x05]) =
    some ([0x01, 0x23, 0x45, 0x67, 0x89, 0xAB, 0xCD, 0xEF], 0) := by decide +kernel

/-- V55. -/
theorem test_desRk : result 0x4D800001 3 (desLoaded []) = some ([0x1B, 0x02, 0xEF, 0xFC, 0x70, 0x72], 0) := by
  decide +kernel

/-- V60. -/
theorem test_desF : result 0x50800001 1 (desLoaded [0xF0, 0xAA, 0xF0, 0xAA]) = some ([0x23, 0x4A, 0xA9, 0xBB], 0) := by
  decide +kernel

/-- V61. -/
theorem test_desRnd : result 0x54800001 1 (desLoaded [0xCC, 0x00, 0xCC, 0xFF, 0xF0, 0xAA, 0xF0, 0xAA]) =
    some ([0xF0, 0xAA, 0xF0, 0xAA, 0xEF, 0x4A, 0x65, 0x44], 0) := by decide +kernel

/-- V65: needs no key. -/
theorem test_desSbox : result 0x58800000 1 (start [0x61, 0x17, 0xBA, 0x86, 0x65, 0x27] []) =
    some ([0x5C, 0x82, 0xB5, 0x97], 0) := by decide +kernel

/-- V73, V84: round key 1 after DEAL_KEY with the zero key, and an 8-byte key. -/
theorem test_dealKey :
    (after 0x80000000 (start (List.replicate 16 0) [])).map (fun t => (t.eks[0], t.ekv, t.dkv, t.err)) =
      some (0xD5D44FF720683D0D, true, false, 0) ∧
    (after 0x80000000 (start (List.replicate 8 0) [])).map (fun t => (t.ekv, t.err)) = some (false, 1) := by
  decide +kernel

/-- A loaded DEAL key: round keys that are easy to tell apart, the first that of V73. -/
def dealLoaded (b0 : Bytes) : State := { start b0 [] with eks := #v[0xD5D44FF720683D0D, 1, 2, 3, 4, 5], ekv := true }

/-- V79, and V81: no DEAL key. -/
theorem test_dealF : result 0x90800001 1 (dealLoaded (List.replicate 8 0)) =
      some ([0x23, 0x08, 0x3A, 0x3C, 0xA7, 0x0D, 0xD0, 0x27], 0) ∧
    result 0x90800001 1 (start (List.replicate 8 0) []) = some ([], 4) := by decide +kernel

/-- V80. -/
theorem test_dealRnd : result 0x94800001 1 (dealLoaded (List.replicate 16 0)) =
    some ([0, 0, 0, 0, 0, 0, 0, 0, 0x23, 0x08, 0x3A, 0x3C, 0xA7, 0x0D, 0xD0, 0x27], 0) := by decide +kernel

/-- The last of six round keys (43_deal R230). -/
theorem test_dealRk : result 0x8D800006 3 (dealLoaded []) = some ([0, 0, 0, 0, 0, 0, 0, 5], 0) := by decide +kernel

/-- V74, V75: with the round keys of the default schedule, of which V73 and V74 give the first and the last. -/
def dealZeroKey : Vector (BitVec 64) 6 := dealKsDefault 0

/-- V74. -/
theorem test_deal_schedule_last : dealZeroKey[5] = 0x2B7BEEE5CA9ABC9C := by decide +kernel

/-- V81, V83: no key, and an 8-byte block. -/
theorem test_dealEnc_errors : result 0x84800000 1 (start (List.replicate 16 0) []) = some ([], 4) ∧
    result 0x84800000 1 (dealLoaded (List.replicate 8 0)) = some ([], 1) := by decide +kernel

/-- V75. -/
theorem test_dealEnc :
    result 0x84800000 1 { start (List.replicate 16 0) [] with eks := dealZeroKey, ekv := true } =
      some ([0x21, 0x88, 0x19, 0xD5, 0xC8, 0xEA, 0xFF, 0x7A, 0x10, 0xBB, 0x53, 0x32, 0x3D, 0x4C, 0xAB, 0x61], 0) := by
  decide +kernel

/-- V76. -/
theorem test_dealDec :
    result 0x88800000 1 { start [0x21, 0x88, 0x19, 0xD5, 0xC8, 0xEA, 0xFF, 0x7A, 0x10, 0xBB, 0x53, 0x32, 0x3D, 0x4C,
      0xAB, 0x61] [] with eks := dealZeroKey, ekv := true } = some (List.replicate 16 0, 0) := by decide +kernel

/-- CLRERR clears the sticky bits (44_control R250), and V88: the all-zero word is illegal. -/
theorem test_clrErr :
    (after 0xFC000000 { State.reset with err := 3, anyErr := true, busErr := true }).map (fun t => t.statusWord) = some 0 ∧
    (after 0x00000000 State.reset).map (fun t => t.statusWord) = some 0x13 := by decide +kernel

/-! ### The bus (program P4 of 95_test_vectors) -/

/-- What the bus answers to one action, and STATUS after it. -/
def answer (a : HostAction) (s : State) : Option (Option Reply × Word) :=
  match step { s with host := [a] } with
  | .next t => some (t.replies.getLast?, t.statusWord)
  | _ => none

theorem test_bus_errors :
    answer (.write 0x004 0) State.reset = some (some .busError, 0x20) ∧
    answer (.write 0x502 0) State.reset = some (some .busError, 0x20) ∧
    answer (.write 0x500 0x12345678) State.reset = some (some .busError, 0x20) := by decide +kernel

theorem test_bus_rom_read : answer (.read 0x500) State.reset = some (some (.value 0x3A322A22), 0) := by decide +kernel

/-- 20_memory R61: the data window is big-endian and does not look at LEN. -/
theorem test_bus_data : answer (.read 0x110) (start [] [0x8C, 0xA6, 0x4D, 0xE9]) =
    some (some (.value 0x8CA64DE9), 0) := by decide +kernel

/-- 20_memory R59: PCFG's reserved bits are dropped. -/
theorem test_bus_pcfg :
    (match step { State.reset with host := [.write 0x008 0xFFFFFFFF] } with
      | .next t => some t.pcfg
      | _ => none) = some 0x83FFFFFF := by decide +kernel

/-! ### Witnesses: for every statement, values that meet its hypotheses, at the ends of the ranges -/

/-- Reset, with the host about to do this. -/
def about (a : HostAction) : State := { State.reset with host := [a] }

/-- Reset, with these lengths in B0 and B1. -/
def lens (l0 l1 : BitVec 5) : State :=
  { State.reset with bufs := (State.reset.bufs.set 0 { Buf.zero with len := l0 }).set 1 { Buf.zero with len := l1 } }

/-- A word of a row that is legal, and one of its OP that is not. -/
abbrev RowMet (code : BitVec 6) (mask pattern good bad : Word) : Prop :=
  good.extractLsb' 26 6 = code ∧ good &&& mask = pattern ∧ bad.extractLsb' 26 6 = code ∧ bad &&& mask ≠ pattern

/-- Whether an outcome is a next state with this ERR. -/
def endsWith (o : Host.Outcome State Fault Refusal) (err : BitVec 4) : Bool :=
  match o with
  | .next t => t.err = err
  | _ => false

theorem endsWith_next {o : Host.Outcome State Fault Refusal} {err : BitVec 4} (h : endsWith o err = true) :
    ∃ t, o = .next t ∧ t.err = err := by
  unfold endsWith at h
  split at h
  · exact ⟨_, rfl, by simpa using h⟩
  · cases h

theorem witness_DecodeOfEncode : (Instr.split 0 0 7).wf = true ∧ (Instr.desRk 7 16).wf = true ∧
    (Instr.dealRnd 7 0 6).wf = true := by decide

theorem witness_EncodeOfDecode : decode 0x95100006 = .ok (.dealRnd 2 1 6) := by decide

/-- One illegal word for each clause of 30_encoding R85, and a legal word. -/
theorem witness_IllegalWordsAbort :
    IllegalCommandWord 0x18000000 ∧ IllegalCommandWord 0x04010000 ∧ IllegalCommandWord 0x4D800011 ∧
    IllegalCommandWord 0x8D800007 ∧ IllegalCommandWord 0x08820000 ∧ ¬IllegalCommandWord 0x4D800010 := by
  refine ⟨?_, ?_, ?_, ?_, ?_, ?_⟩ <;> (dsimp only [IllegalCommandWord, roundIn]; decide)

theorem witness_StepRunsDecodedCommand :
    (about (.write 0x000 0xFC000000)).host = .write 0x000 0xFC000000 :: [] ∧ decode 0xFC000000 = .ok .clrErr := by decide

theorem witness_CmdRegister : (about (.read 0x000)).host = .read 0x000 :: [] ∧
    (about (.write 0x000 0)).host = .write 0x000 0 :: [] := by decide

theorem witness_EveryStepCompletes : State.reset.host = [] := rfl

theorem witness_ResetAction : (about .reset).host = .reset :: [] := rfl

/-- A state with a loaded key, a listed table entry and a set error meets the invariant and steps. -/
theorem witness_StepKeepsInvariant : ∃ s t : State, s.Inv ∧ s.dkv = true ∧ s.tbl ≠ [] ∧ step s = .next t :=
  ⟨{ State.reset with
      dks := desKS 1, dkv := true, tbl := [(255, 7)], err := 4, anyErr := true, pcfg := 0x83FFFFFF, host := [.reset] },
    _, ⟨by decide, by decide, fun _ => rfl, by decide, fun _ => ⟨1, rfl⟩, fun h => (by cases h), fun h => (by cases h),
      fun _ => rfl⟩, rfl, by decide, rfl⟩

theorem witness_AbortChangesOnlyStatus : ∃ t, exec (.xor 2 0 1) (lens 17 17) = .next t ∧ t.err ≠ 0 := by
  obtain ⟨t, h, he⟩ := endsWith_next (o := exec (.xor 2 0 1) (lens 17 17)) (err := 1) (by decide +kernel)
  exact ⟨t, h, by rw [he]; decide⟩

/-- A command that completes, and CLRERR itself. -/
theorem witness_SuccessKeepsStickyFlags : (∃ t, exec (.xor 2 0 1) (lens 16 16) = .next t ∧ t.err = 0) ∧
    Instr.xor 2 0 1 ≠ .clrErr ∧ ∃ t, exec .clrErr State.reset = .next t :=
  ⟨endsWith_next (by decide +kernel), by decide, _, rfl⟩

/-- A completing command, one that is neither DES_KEY, DEAL_KEY nor CLRERR, with a register that is no destination. -/
theorem witness_CommandFrame : (∃ t, exec (.split 1 0 2) (lens 16 0) = .next t ∧ t.err = 0) ∧
    (0 : BufReg) ∉ destinations (.split 1 0 2) ∧ (∀ r, Instr.split 1 0 2 ≠ .desKey r) ∧
    (∀ r, Instr.split 1 0 2 ≠ .dealKey r) ∧ Instr.split 1 0 2 ≠ .clrErr :=
  ⟨endsWith_next (by decide +kernel), by decide, by decide, by decide, by decide⟩

/-- A failing command, for the clause on ANYERR. -/
theorem witness_CommandFrame_failing : ∃ t, exec (.desKey 0) (lens 7 0) = .next t ∧ t.err = 1 :=
  endsWith_next (by decide +kernel)

/-- The two classes are met by DEAL_RK and DES_SBOX, among others. -/
theorem witness_KeyStatesAreSeparate :
    (match Instr.dealRk 0 1 with
      | .dealKey _ | .dealEnc _ _ | .dealDec _ _ | .dealRk _ _ | .dealF _ _ _ | .dealRnd _ _ _ => True
      | _ => False) ∧
    (match Instr.desSbox 0 1 with
      | .desKey _ | .desEnc _ _ | .desDec _ _ | .desRk _ _ | .desF _ _ _ | .desRnd _ _ _ | .desSbox _ _ => True
      | _ => False) := ⟨trivial, trivial⟩

theorem witness_OnlyPermReadsTables : ∀ rd rs1, Instr.rotl 0 0 0 0 ≠ .perm rd rs1 := by decide

/-- An ill-formed and a well-formed command that end. -/
theorem witness_ErrorsOfEachCommand : (∃ t, exec (.desRk 0 17) State.reset = .next t ∧ t.err = 3) ∧
    (Instr.desRk 0 17).wf = false ∧ (∃ t, exec (.desRk 0 16) State.reset = .next t ∧ t.err = 4) ∧
    (Instr.desRk 0 16).wf = true :=
  ⟨endsWith_next (by decide +kernel), by decide, endsWith_next (by decide +kernel), by decide⟩

/-- Each reserved range at both ends, misaligned addresses, and host actions at one of them. -/
theorem witness_UnmappedAccessesRefused :
    UnmappedAddr 0x001 ∧ UnmappedAddr 0xFFF ∧ UnmappedAddr 0x00C ∧ UnmappedAddr 0x030 ∧ UnmappedAddr 0x0FC ∧
    UnmappedAddr 0x180 ∧ UnmappedAddr 0x3FC ∧ UnmappedAddr 0x800 ∧ UnmappedAddr 0xFFC ∧
    (about (.read 0x00C)).host = .read 0x00C :: [] ∧ (about (.write 0x00C 1)).host = .write 0x00C 1 :: [] := by
  refine ⟨?_, ?_, ?_, ?_, ?_, ?_, ?_, ?_, ?_, rfl, rfl⟩ <;> (dsimp only [UnmappedAddr]; decide)

/-- The addresses next to the reserved ranges have registers. -/
theorem witness_UnmappedAddr_ends :
    ¬UnmappedAddr 0x008 ∧ ¬UnmappedAddr 0x010 ∧ ¬UnmappedAddr 0x02C ∧ ¬UnmappedAddr 0x100 ∧ ¬UnmappedAddr 0x17C ∧
    ¬UnmappedAddr 0x400 ∧ ¬UnmappedAddr 0x7FC := by
  refine ⟨?_, ?_, ?_, ?_, ?_, ?_, ?_⟩ <;> (dsimp only [UnmappedAddr]; decide)

theorem witness_ControlRegisters :
    (about (.read 0x004)).host = .read 0x004 :: [] ∧ (about (.write 0x004 1)).host = .write 0x004 1 :: [] ∧
    (about (.read 0x008)).host = .read 0x008 :: [] ∧ (about (.write 0x008 1)).host = .write 0x008 1 :: [] ∧
    (about (.read 0x010)).host = .read (BitVec.ofNat 12 (0x010 + 4 * 0)) :: [] ∧
    (about (.write 0x02C 31)).host = .write (BitVec.ofNat 12 (0x010 + 4 * 7)) 31 :: [] := by decide

theorem witness_DataWindow :
    (about (.read 0x100)).host = .read (BitVec.ofNat 12 (0x100 + 16 * 0 + 4 * 0)) :: [] ∧
    (about (.write 0x17C 1)).host = .write (BitVec.ofNat 12 (0x100 + 16 * 7 + 4 * 3)) 1 :: [] ∧
    (0 : BufReg) ≠ 7 ∧ (11 : Fin 16).val / 4 ≠ (3 : Fin 4).val := by decide

/-- Reads, a write at each end of the table RAM, and a write at each end of the table ROM. -/
theorem witness_TableWindow :
    (about (.read 0x400)).host = .read (BitVec.ofNat 12 (0x400 + 4 * 0)) :: [] ∧
    (about (.write 0x400 1)).host = .write (BitVec.ofNat 12 (0x400 + 4 * 0)) 1 :: [] ∧ (0 : Fin 256).val < 64 ∧
    (about (.write 0x4FC 1)).host = .write (BitVec.ofNat 12 (0x400 + 4 * 63)) 1 :: [] ∧ (63 : Fin 256).val < 64 ∧
    (about (.write 0x500 1)).host = .write (BitVec.ofNat 12 (0x400 + 4 * 64)) 1 :: [] ∧ 64 ≤ (64 : Fin 256).val ∧
    (about (.write 0x7FC 1)).host = .write (BitVec.ofNat 12 (0x400 + 4 * 255)) 1 :: [] ∧ 64 ≤ (255 : Fin 256).val ∧
    (about (.write 0x400 1)).tbl.wf := by decide

/-- The first and last entries of the tables, and where the ROM is zero, from 10_state R28. -/
theorem witness_TableRomContents :
    (Memory.read [] 0x100).toNat = 58 ∧ (Memory.read [] 0x13F).toNat = 7 ∧ (Memory.read [] 0x140).toNat = 40 ∧
    (Memory.read [] 0x17F).toNat = 25 ∧ (Memory.read [] 0x180).toNat = 32 ∧ (Memory.read [] 0x1AF).toNat = 1 ∧
    (Memory.read [] 0x1B0).toNat = 16 ∧ (Memory.read [] 0x1CF).toNat = 25 ∧ (Memory.read [] 0x1D0).toNat = 57 ∧
    (Memory.read [] 0x207).toNat = 4 ∧ (Memory.read [] 0x208).toNat = 14 ∧ (Memory.read [] 0x237).toNat = 32 ∧
    Memory.read [] 0x238 = 0 ∧ Memory.read [] 0x3FF = 0 := by decide +kernel

theorem witness_XorBufIsBytewise : ([1, 2] : Bytes).length = ([3, 4] : Bytes).length := rfl

theorem witness_SplitHalvesOfBytes : ([] : Bytes).length % 2 = 0 ∧ ([1] : Bytes).length % 2 = 1 ∧
    ([1, 2, 3] : Bytes).length % 2 = 1 := by decide

/-- An entry below the source, one above it, and a table within it at both ends. -/
theorem witness_PermuteSelectsBits :
    (∃ x ∈ [0], ((x : Nat) : Int) + (-1) < 0 ∨ 8 * (([1] : Bytes).length : Int) ≤ (x : Int) + (-1)) ∧
    (∃ x ∈ [8], ((x : Nat) : Int) + 0 < 0 ∨ 8 * (([1] : Bytes).length : Int) ≤ (x : Int) + 0) ∧
    ∀ x ∈ [1, 8], 0 ≤ ((x : Nat) : Int) + (-1) ∧ (x : Int) + (-1) < 8 * (([1] : Bytes).length : Int) := by decide

theorem witness_RotlLowRotatesLowBits : 1 ≤ 1 ∧ 1 ≤ 8 * ([1, 2] : Bytes).length ∧ 16 ≤ 8 * ([1, 2] : Bytes).length := by
  decide

theorem witness_KernelLaws : ([1, 2] : Bytes).length = ([3, 4] : Bytes).length ∧ ([1, 2] : Bytes).length % 2 = 0 ∧
    ([1, 2, 3, 4] : Bytes).length = 4 ∧ 1 ≤ 8 ∧ 8 ≤ 8 * ([1] : Bytes).length := by decide

/-- The identity table is its own inverse, and the reversing table is not the identity. -/
theorem witness_PermuteInverseTable :
    (List.replicate 8 (0 : Byte)).length = 8 ∧ ((List.range 64).map (63 - ·)).length = 64 ∧
    (∀ i < 64, ((List.range 64).map (63 - ·)).getD i 0 < 64) ∧
    ∀ i < 64, ((List.range 64).map (63 - ·)).getD i 0 < 64 ∧
      ((List.range 64).map (63 - ·)).getD (((List.range 64).map (63 - ·)).getD i 0) 0 = i := by decide +kernel

theorem witness_XorCommand : RowMet 0x01 0xFC01FFFF 0x04000000 0x05020000 0x05020001 ∧
    16 < (lens 17 0).bufs[(0 : BufReg)].len.toNat ∧ 16 < (lens 0 31).bufs[(1 : BufReg)].len.toNat ∧
    (lens 1 2).bufs[(0 : BufReg)].len ≠ (lens 1 2).bufs[(1 : BufReg)].len ∧
    ¬16 < (lens 16 16).bufs[(0 : BufReg)].len.toNat ∧ endsWith (exec (.xor 2 0 1) (lens 16 16)) 0 = true ∧
    endsWith (exec (.xor 2 0 1) (lens 0 0)) 0 = true := by decide +kernel

/-- SPLIT has a legal word, words illegal by a bit and by equal destinations, and both lengths at the limit. -/
theorem witness_SplitCommand : RowMet 0x02 0xFC01FFFF 0x08000000 0x08840000 0x08840001 ∧
    rdOf 0x08840000 ≠ rs2Of 0x08840000 ∧ rdOf 0x08820000 = rs2Of 0x08820000 ∧
    16 < (lens 17 0).bufs[(0 : BufReg)].len.toNat ∧ (1 : BufReg) ≠ 2 ∧ (0 : BufReg) ≠ 1 ∧ (0 : BufReg) ≠ 2 ∧
    endsWith (exec (.split 1 0 2) (lens 16 0)) 0 = true ∧ endsWith (exec (.split 1 0 2) (lens 0 0)) 0 = true := by
  decide +kernel

theorem witness_JoinCommand : RowMet 0x03 0xFC01FFFF 0x0C000000 0x0C220000 0x0C230000 ∧
    8 < (lens 9 9).bufs[(0 : BufReg)].len.toNat ∧ (lens 8 7).bufs[(0 : BufReg)].len ≠ (lens 8 7).bufs[(1 : BufReg)].len ∧
    endsWith (exec (.join 2 0 1) (lens 8 8)) 0 = true ∧ endsWith (exec (.join 2 0 1) (lens 0 0)) 0 = true := by
  decide +kernel

/-- PERM's five ways to end: TLEN 129, TBASE + TLEN 1025, an entry outside the source, TLEN 128, TLEN 0. -/
theorem witness_PermCommand : RowMet 0x04 0xFC0FFFFF 0x10000000 0x10800000 0x10800001 ∧
    endsWith (exec (.perm 1 0) { lens 1 0 with pcfg := 0x00008100 }) 1 = true ∧
    endsWith (exec (.perm 1 0) { lens 1 0 with pcfg := 0x03FF0200 }) 2 = true ∧
    endsWith (exec (.perm 1 0) { lens 1 0 with pcfg := 0x000001FF }) 2 = true ∧
    endsWith (exec (.perm 1 0) { lens 1 0 with pcfg := 0x03FF0100 }) 0 = true ∧
    endsWith (exec (.perm 1 0) { lens 1 0 with pcfg := 0x80008000 }) 0 = true ∧
    endsWith (exec (.perm 1 0) (lens 0 0)) 0 = true := by decide +kernel

theorem witness_RotlCommand : RowMet 0x05 0xFC0F0000 0x14000000 0x14800108 0x14810108 ∧
    16 < (lens 17 0).bufs[(0 : BufReg)].len.toNat ∧ 8 * (lens 2 0).bufs[(0 : BufReg)].len.toNat < (17 : BitVec 8).toNat ∧
    endsWith (exec (.rotl 1 0 1 0) (lens 2 0)) 1 = true ∧ endsWith (exec (.rotl 1 0 255 128) (lens 16 0)) 0 = true ∧
    endsWith (exec (.rotl 1 0 0 1) (lens 1 0)) 0 = true := by decide +kernel

/-- Each of the six PCFG values with a source of its length. -/
theorem witness_RomPermComputesDesTables :
    ({ lens 8 0 with pcfg := 0x010040FF } : State).pcfg = 0x010040FF ∧ (lens 8 0).bufs[(0 : BufReg)].len = 8 ∧
    endsWith (exec (.perm 1 0) { lens 8 0 with pcfg := 0x010040FF }) 0 = true ∧
    endsWith (exec (.perm 1 0) { lens 8 0 with pcfg := 0x014040FF }) 0 = true ∧
    endsWith (exec (.perm 1 0) { lens 4 0 with pcfg := 0x018030FF }) 0 = true ∧
    endsWith (exec (.perm 1 0) { lens 4 0 with pcfg := 0x01B020FF }) 0 = true ∧
    endsWith (exec (.perm 1 0) { lens 8 0 with pcfg := 0x01D038FF }) 0 = true ∧
    endsWith (exec (.perm 1 0) { lens 7 0 with pcfg := 0x020830FF }) 0 = true := by decide +kernel

theorem witness_FpUndoesIp : 1 ≤ 1 ∧ 1 ≤ 64 ∧ 1 ≤ 64 ∧ 64 ≤ 64 := by decide

/-- Two keys that differ, in parity bits only; the schedule of one is loaded. -/
theorem witness_ParityBitsIgnored : (0 : BitVec 64) ≠ 0x0101010101010101 ∧
    (∀ p < 65, 1 ≤ p → p % 8 ≠ 0 → (0 : BitVec 64).getMsbD (p - 1) = (0x0101010101010101 : BitVec 64).getMsbD (p - 1)) ∧
    (lens 8 0).bufs[(0 : BufReg)].len = 8 := by decide +kernel

theorem witness_DesKeyCommand : RowMet 0x10 0xFF8FFFFF 0x40000000 0x40000000 0x40800000 ∧
    (lens 7 0).bufs[(0 : BufReg)].len ≠ 8 ∧ (lens 9 0).bufs[(0 : BufReg)].len ≠ 8 ∧
    (lens 8 0).bufs[(0 : BufReg)].len = 8 := by decide +kernel

/-- The DES commands on a block: no key, a wrong length, and both met. -/
theorem witness_DesBlockCommands : RowMet 0x11 0xFC0FFFFF 0x44000000 0x44800000 0x44800001 ∧
    RowMet 0x12 0xFC0FFFFF 0x48000000 0x48800000 0x48820000 ∧ (lens 8 0).dkv = false ∧
    (desLoaded (List.replicate 8 0)).dkv = true ∧ (desLoaded (List.replicate 7 0)).bufs[(0 : BufReg)].len ≠ 8 ∧
    (desLoaded (List.replicate 8 0)).bufs[(0 : BufReg)].len = 8 := by decide +kernel

/-- The DES commands with a round index: its limits and beyond, no key, a wrong length, all met. -/
theorem witness_DesRoundCommands : RowMet 0x13 0xFC7FFFE0 0x4C000000 0x4D800010 0x4D800020 ∧
    RowMet 0x14 0xFC0FFFE0 0x50000000 0x50800001 0x50820001 ∧ RowMet 0x15 0xFC0FFFE0 0x54000000 0x54800010 0x54810010 ∧
    roundIn 16 0x4D800010 ∧ roundIn 16 0x50800001 ∧ ¬roundIn 16 0x4D800011 ∧ ¬roundIn 16 0x50800000 ∧
    ¬(1 ≤ (0 : BitVec 16).toNat ∧ (0 : BitVec 16).toNat ≤ 16) ∧ ¬(1 ≤ (17 : BitVec 16).toNat ∧ (17 : BitVec 16).toNat ≤ 16) ∧
    (1 : BitVec 16).toNat = (0 : Fin 16).val + 1 ∧ (16 : BitVec 16).toNat = (15 : Fin 16).val + 1 ∧
    State.reset.dkv = false ∧ (desLoaded []).dkv = true ∧ (desLoaded [1]).bufs[(0 : BufReg)].len ≠ 4 ∧
    (desLoaded [1, 2, 3, 4]).bufs[(0 : BufReg)].len = 4 ∧ (desLoaded (List.replicate 8 0)).bufs[(0 : BufReg)].len = 8 := by
  unfold roundIn; decide +kernel

theorem witness_DesSboxCommand : RowMet 0x16 0xFC0FFFFF 0x58000000 0x58800000 0x58820000 ∧
    (lens 5 0).bufs[(0 : BufReg)].len ≠ 6 ∧ (lens 6 0).bufs[(0 : BufReg)].len = 6 := by decide +kernel

theorem witness_DesDecUndoesDesEnc : (desLoaded (List.replicate 8 1)).dkv = true ∧
    (desLoaded (List.replicate 8 1)).bufs[(0 : BufReg)].len = 8 := by decide +kernel

theorem witness_DealDefaultSchedule : (0x00000000000000010000000000000002 : BitVec 128) = (1 : BitVec 64) ++ (2 : BitVec 64) := by
  decide

theorem witness_DealKeyCommand : RowMet 0x20 0xFF8FFFFF 0x80000000 0x80000000 0x80800000 ∧
    (lens 8 0).bufs[(0 : BufReg)].len ≠ 16 ∧ (lens 16 0).bufs[(0 : BufReg)].len = 16 := by decide +kernel

/-- The DEAL commands on a block: no key, a wrong length, and both met. -/
theorem witness_DealBlockCommands : RowMet 0x21 0xFC0FFFFF 0x84000000 0x84800000 0x84800001 ∧
    RowMet 0x22 0xFC0FFFFF 0x88000000 0x88800000 0x88820000 ∧ (lens 16 0).ekv = false ∧
    (dealLoaded (List.replicate 16 0)).ekv = true ∧ (dealLoaded (List.replicate 8 0)).bufs[(0 : BufReg)].len ≠ 16 ∧
    (dealLoaded (List.replicate 16 0)).bufs[(0 : BufReg)].len = 16 := by decide +kernel

/-- The DEAL commands with a round index: its limits and beyond, no key, a wrong length, all met. -/
theorem witness_DealRoundCommands : RowMet 0x23 0xFC7FFFF8 0x8C000000 0x8D800006 0x8D800008 ∧
    RowMet 0x24 0xFC0FFFF8 0x90000000 0x90800001 0x90820001 ∧ RowMet 0x25 0xFC0FFFF8 0x94000000 0x95100006 0x95110006 ∧
    roundIn 6 0x8D800006 ∧ roundIn 6 0x90800001 ∧ ¬roundIn 6 0x8D800007 ∧ ¬roundIn 6 0x90800000 ∧
    ¬(1 ≤ (0 : BitVec 16).toNat ∧ (0 : BitVec 16).toNat ≤ 6) ∧ ¬(1 ≤ (7 : BitVec 16).toNat ∧ (7 : BitVec 16).toNat ≤ 6) ∧
    (1 : BitVec 16).toNat = (0 : Fin 6).val + 1 ∧ (6 : BitVec 16).toNat = (5 : Fin 6).val + 1 ∧
    State.reset.ekv = false ∧ (dealLoaded []).ekv = true ∧ (dealLoaded [1]).bufs[(0 : BufReg)].len ≠ 8 ∧
    (dealLoaded (List.replicate 8 0)).bufs[(0 : BufReg)].len = 8 ∧
    (dealLoaded (List.replicate 16 0)).bufs[(0 : BufReg)].len = 16 := by
  unfold roundIn; decide +kernel

theorem witness_DealDecUndoesDealEnc : (dealLoaded (List.replicate 16 1)).ekv = true ∧
    (dealLoaded (List.replicate 16 1)).bufs[(0 : BufReg)].len = 16 := by decide +kernel

/-- The one legal word, and a command that completes with both sticky flags set. -/
theorem witness_ClrErrCommand : RowMet 0x3F 0xFFFFFFFF 0xFC000000 0xFC000000 0xFC000001 ∧ Instr.xor 2 0 1 ≠ .clrErr ∧
    endsWith (exec (.xor 2 0 1) { State.reset with anyErr := true, busErr := true }) 0 = true := by decide +kernel

end Sys2Proof.Tests
end

section
/-! PROOFS. The state: every reset value (10_state R39), and the contents of the table ROM (10_state R28). -/

namespace Sys2Proof.Machine

/-! ### Reset -/

theorem State.reset_buf (n : BufReg) : State.reset.bufs[n] = Buf.zero := by simp [State.reset]

theorem Buf.zero_data (i : Fin 16) : Buf.zero.data[i] = 0 := by simp [Buf.zero]

theorem Buf.zero_len : Buf.zero.len = 0 := rfl

theorem State.reset_dks (i : Fin 16) : State.reset.dks[i] = 0 := by simp [State.reset]

theorem State.reset_eks (i : Fin 6) : State.reset.eks[i] = 0 := by simp [State.reset]

/-- Table RAM reads 0 where nothing is listed. -/
theorem Memory.read_nil_ram {a : Nat} (h : a < 0x100) : Memory.read [] a = 0 := by
  simp [Memory.read, Memory.find, Memory.unlisted, h]

/-! ### Table ROM -/

@[simp] theorem ipTable_length : ipTable.length = 64 := rfl
@[simp] theorem fpTable_length : fpTable.length = 64 := rfl
@[simp] theorem eTable_length : eTable.length = 48 := rfl
@[simp] theorem pTable_length : pTable.length = 32 := rfl
@[simp] theorem pc1Table_length : pc1Table.length = 56 := rfl
@[simp] theorem pc2Table_length : pc2Table.length = 48 := rfl

/-- The six tables fill table addresses 0x100 to 0x237. -/
theorem romTables_length : romTables.length = 0x138 := by simp [romTables]

theorem romTables_lt : ∀ x ∈ romTables, x < 256 := by decide +kernel

/-- No entry is cut off by the byte it is stored in. -/
theorem romEntry_toNat (a : Nat) : (romEntry a).toNat = romTables.getD (a - 0x100) 0 := by
  have hlt : romTables.getD (a - 0x100) 0 < 256 := by
    by_cases h : a - 0x100 < romTables.length
    · rw [List.getD_eq_getElem _ _ h]
      exact romTables_lt _ (List.getElem_mem h)
    · rw [List.getD_eq_default _ _ (Nat.le_of_not_lt h)]
      decide
  simpa [romEntry] using Nat.mod_eq_of_lt hlt

/-- A table stands, entry by entry, right behind the tables listed before it. -/
theorem Memory.read_romTable (m : Memory) {base i : Nat} {before table : List Nat}
    (hrom : before ++ table <+: romTables) (hbase : base = 0x100 + before.length) (hi : i < table.length) :
    (m.read (base + i)).toNat = table.getD i 0 := by
  obtain ⟨after, hrom⟩ := hrom
  have hindex : base + i - 0x100 = before.length + i := by omega
  rw [Memory.read_rom m (by omega), romEntry_toNat, hindex, ← hrom, List.append_assoc,
    List.getD_append_right _ _ _ _ (Nat.le_add_right _ _), Nat.add_sub_cancel_left, List.getD_append _ _ _ _ hi]

theorem Memory.read_rom_after_tables (m : Memory) {a : Nat} (h : 0x238 ≤ a) : m.read a = 0 := by
  have hlen : romTables.length ≤ a - 0x100 := by rw [romTables_length]; omega
  rw [Memory.read_rom m (by omega), romEntry, List.getD_eq_default _ _ hlen]
  rfl

/-- Settles O8: the registers by their reset values, table RAM because nothing is listed in it, and table ROM because it
reads the same in every memory. -/
theorem resetValues : Obligations.ResetValues := by
  refine ⟨fun n i => ?_, fun n => ?_, rfl, rfl, rfl, rfl, rfl, rfl, rfl, rfl, fun a ha => Memory.read_nil_ram ha,
    fun m a ha => ?_, State.reset_dks, State.reset_eks⟩
  · rw [State.reset_buf, Buf.zero_data]
  · rw [State.reset_buf, Buf.zero_len]
  · rw [Memory.read_rom _ ha, Memory.read_rom m ha]

/-- Settles O22: each table stands in the list of the six behind the tables before it. -/
theorem tableRomContents : Obligations.TableRomContents := by
  intro m
  refine ⟨fun i hi => ?_, fun i hi => ?_, fun i hi => ?_, fun i hi => ?_, fun i hi => ?_, fun i hi => ?_,
    fun a ha _ => Memory.read_rom_after_tables m ha⟩
  · exact m.read_romTable (before := []) (table := ipTable)
      (by simp [romTables]) (by simp) (by simpa using hi)
  · exact m.read_romTable (before := ipTable) (table := fpTable)
      (by simp [romTables]) (by simp) (by simpa using hi)
  · exact m.read_romTable (before := ipTable ++ fpTable) (table := eTable)
      (by simp [romTables]) (by simp) (by simpa using hi)
  · exact m.read_romTable (before := ipTable ++ fpTable ++ eTable) (table := pTable)
      (by simp [romTables]) (by simp) (by simpa using hi)
  · exact m.read_romTable (before := ipTable ++ fpTable ++ eTable ++ pTable) (table := pc1Table)
      (by simp [romTables]) (by simp) (by simpa using hi)
  · exact m.read_romTable (before := ipTable ++ fpTable ++ eTable ++ pTable ++ pc1Table) (table := pc2Table)
      (by simp [romTables]) (by simp) (by simpa using hi)

end Sys2Proof.Machine
end

section
/-! PROOFS. The host bus: refused accesses (20_memory R63), the control registers (R58 to R60), the data windows (R61). -/

namespace Sys2Proof.Machine

/-! ### An access by what the address map says of its address (20_memory R52, R53) -/

theorem readRefused_of_hostReg_none {addr : Addr} (h : hostReg addr = none) : ReadRefused addr := by
  intro s rest hs
  simp only [step_cons hs, hostAction, memRead, h]
  rfl

theorem writeRefused_of_hostReg_none {addr : Addr} (h : hostReg addr = none) : WriteRefused addr := by
  intro s v rest hs
  simp only [step_cons hs, hostAction, memWrite, h]
  rfl

theorem readsAs_readReg {addr : Addr} {r : HostReg} (h : hostReg addr = some r) : ReadsAs addr (·.readReg r) := by
  intro s rest hs
  have hvalue : { s with host := rest }.readReg r = s.readReg r := by cases r <;> rfl
  simp only [step_cons hs, hostAction, memRead, h, hvalue]
  rfl

/-- Every word but CMD, whose write runs a command, is stored or refused. -/
theorem memWrite_noncmd {addr : Addr} {r : HostReg} (h : hostReg addr = some r) (hcmd : r ≠ .cmd) (v : Word)
    (s : State) :
    memWrite addr v s = .next (if r.writable then (s.storeReg r v).reply .ok else s.busError) := by
  cases r with
  | cmd => exact absurd rfl hcmd
  | _ => simp only [memWrite, h]

theorem writeRefused_of_not_writable {addr : Addr} {r : HostReg} (h : hostReg addr = some r)
    (hw : r.writable = false) : WriteRefused addr := by
  intro s v rest hs
  have hcmd : r ≠ .cmd := by rintro rfl; cases hw
  rw [step_cons hs, hostAction, memWrite_noncmd h hcmd, hw]
  rfl

theorem storesAs_storeReg {addr : Addr} {r : HostReg} (h : hostReg addr = some r) (hcmd : r ≠ .cmd)
    (hw : r.writable = true) : StoresAs addr (·.storeReg r ·) := by
  intro s v rest hs
  rw [step_cons hs, hostAction, memWrite_noncmd h hcmd, hw]
  cases r <;> rfl

/-! ### STATUS (10_state R34, 20_memory R58) -/

/-- The five fields hold 2 ^ 8 values between them, and the word is compared at each. -/
theorem statusWord_eq (s : State) :
    s.statusWord = BitVec.ofNat 32 (s.err.toNat + 16 * s.anyErr.toNat + 32 * s.busErr.toNat + 256 * s.dkv.toNat +
      512 * s.ekv.toNat) := by
  unfold State.statusWord
  generalize s.err = err, s.anyErr = anyErr, s.busErr = busErr, s.dkv = dkv, s.ekv = ekv
  revert err anyErr busErr dkv ekv
  decide

/-! ### A word of a data window (20_memory R61) -/

theorem Buf.setWord_len (b : Buf) (k : Fin 4) (v : Word) : (b.setWord k v).len = b.len := by
  simp only [Buf.setWord]

theorem Buf.setWord_data (b : Buf) (k : Fin 4) (v : Word) (i : Nat) (hi : i < 16) :
    (b.setWord k v).data[i] = if i / 4 = k.val then wordByte v (i % 4) else b.data[i] := by
  simp [Buf.setWord]

/-- Byte `j` of the word that is written. -/
theorem Buf.setWord_data_same (b : Buf) (k : Fin 4) (v : Word) (j : Nat) (hj : j < 4) :
    (b.setWord k v).data[4 * k.val + j] = wordByte v j := by
  rw [Buf.setWord_data, if_pos (by omega), Nat.mul_add_mod, Nat.mod_eq_of_lt hj]

/-- Settles O18: the address map has no register there. -/
theorem unmappedAccessesRefused : Obligations.UnmappedAccessesRefused := fun _ h =>
  ⟨readRefused_of_hostReg_none (hostReg_unmapped h), writeRefused_of_hostReg_none (hostReg_unmapped h)⟩

/-- Settles O19: each address is one register's, whose value and whose stored word are those of R58 to R60. -/
theorem controlRegisters : Obligations.ControlRegisters := by
  have hstatus : hostReg 0x004 = some .status := by decide
  have hpcfg : hostReg 0x008 = some .pcfg := by decide
  refine ⟨⟨?_, writeRefused_of_not_writable hstatus rfl⟩,
    ⟨readsAs_readReg hpcfg, storesAs_storeReg hpcfg (by decide) rfl⟩, fun n =>
    ⟨?_, storesAs_storeReg (hostReg_len n) nofun rfl⟩⟩
  · simpa only [State.readReg, statusWord_eq] using readsAs_readReg hstatus
  · simpa only [State.readReg, BitVec.ofNat_toNat] using readsAs_readReg (hostReg_len n)

/-- Settles O20: the window's word is read as four bytes, and a write replaces these four bytes of this one register. -/
theorem dataWindow : Obligations.DataWindow := by
  intro n k
  refine ⟨?_, fun s v rest hs => ⟨_, storesAs_storeReg (hostReg_data n k) nofun rfl s v rest hs, rfl, ?_⟩⟩
  · simpa only [State.readReg, wordOfBytes_eq] using readsAs_readReg (hostReg_data n k)
  have hself : (s.bufs.set n (s.bufs[n].setWord k v))[n] = s.bufs[n].setWord k v := Vector.getElem_set_self n.isLt
  have hother : ∀ m : BufReg, m ≠ n → (s.bufs.set n (s.bufs[n].setWord k v))[m] = s.bufs[m] := fun m hm =>
    Vector.getElem_set_ne n.isLt m.isLt (fun h => hm (Fin.ext h.symm))
  refine ⟨hother, ?_⟩
  simp only [State.storeReg, hself]
  refine ⟨Buf.setWord_len .., Buf.setWord_data_same _ _ _ 0 (by decide), Buf.setWord_data_same _ _ _ 1 (by decide),
    Buf.setWord_data_same _ _ _ 2 (by decide), Buf.setWord_data_same _ _ _ 3 (by decide), fun i hi => ?_⟩
  exact (Buf.setWord_data _ _ _ i i.isLt).trans (if_neg hi)

end Sys2Proof.Machine
end

section
/-! PROOFS. The illegal command words: the decoder refuses exactly the words of 30_encoding R85. -/

namespace Sys2Proof.Laws

open Sys2Proof.Machine

/-- The listed OP values are those of the rows of the opcode map (30_encoding R84, R85 (a)). -/
theorem mem_listedOps_iff {code : BitVec 6} : code ∈ listedOps ↔ ∃ op : Op, code = op.code := by
  constructor
  · have hsome : ∀ c : BitVec 6, c ∈ listedOps → (opOfCode c).isSome := by decide
    intro h
    obtain ⟨op, hop⟩ := Option.isSome_iff_exists.mp (hsome code h)
    exact ⟨op, opOfCode_some hop⟩
  · rintro ⟨op, rfl⟩
    cases op <;> decide

/-! ### The mask of a row beside the must-be-zero mask of its format (30_encoding R82, R84) -/

theorem mask_eq_fields (op : Op) :
    op.mask = joinFields 0x3F (op.mask.extractLsb' 23 3) (op.mask.extractLsb' 20 3) (op.mask.extractLsb' 17 3) 1
      (immField op.mask) := by
  cases op <;> decide

/-- The two masks agree on the register fields and on bit 16. -/
theorem mustBeZeroMask_eq_fields (op : Op) :
    mustBeZeroMask op.code = joinFields 0 (op.mask.extractLsb' 23 3) (op.mask.extractLsb' 20 3)
      (op.mask.extractLsb' 17 3) 1 (immField (mustBeZeroMask op.code)) := by
  cases op <;> decide

/-- The two masks agree on IMM but in the rows with a round index, where only the row's mask covers the bits above the
index (30_encoding R84). -/
theorem immField_mask_cases (op : Op) :
    immField op.mask = immField (mustBeZeroMask op.code) ∨
    (op.code ∈ [0x13, 0x14, 0x15] ∧ immField op.mask = 0xFFE0 ∧ immField (mustBeZeroMask op.code) = 0) ∨
    (op.code ∈ [0x23, 0x24, 0x25] ∧ immField op.mask = 0xFFF8 ∧ immField (mustBeZeroMask op.code) = 0) := by
  cases op <;> decide

/-- A round index in its limits has none of the bits that the row's mask adds. -/
theorem immField_masked_iff {op : Op} {w : Word} (hl : checkLimits op w = .ok ()) :
    immField w &&& immField op.mask = 0 ↔ immField w &&& immField (mustBeZeroMask op.code) = 0 := by
  obtain ⟨hdes, hdeal, -⟩ := (checkLimits_iff op w).mp hl
  obtain heq | ⟨hop, hrow, hformat⟩ | ⟨hop, hrow, hformat⟩ := immField_mask_cases op
  · rw [heq]
  · simpa [hrow, hformat] using desRound_masked (round := immField w) (hdes hop).2
  · simpa [hrow, hformat] using dealRound_masked (round := immField w) (hdeal hop).2

/-- Within the limits of its row, a word matches the row when no must-be-zero field of the row's format is set. -/
theorem matches_iff_mustBeZero {op : Op} {w : Word} (hop : opField w = op.code) (hl : checkLimits op w = .ok ()) :
    w &&& op.mask = op.pattern ↔ w &&& mustBeZeroMask op.code = 0 := by
  rw [matches_iff_fields (mask_eq_fields op), masked_zero_iff (mustBeZeroMask_eq_fields op), immField_masked_iff hl,
    and_iff_right hop]

/-! ### Legal words -/

theorem not_illegalCommandWord_iff {w : Word} : ¬IllegalCommandWord w ↔
    ∃ op : Op, opField w = op.code ∧ w &&& mustBeZeroMask op.code = 0 ∧ checkLimits op w = .ok () := by
  have hclauses : ¬IllegalCommandWord w ↔
      opField w ∈ listedOps ∧ w &&& mustBeZeroMask (opField w) = 0 ∧
      (opField w ∈ [0x13, 0x14, 0x15] → roundIn 16 w) ∧ (opField w ∈ [0x23, 0x24, 0x25] → roundIn 6 w) ∧
      (opField w = 0x02 → rdOf w ≠ rs2Of w) := by
    simp only [IllegalCommandWord, opField, ne_eq, not_or, not_and, not_not]
  rw [hclauses, mem_listedOps_iff]
  constructor
  · rintro ⟨⟨op, hop⟩, hzero, hlimits⟩
    rw [hop] at hzero hlimits
    exact ⟨op, hop, hzero, (checkLimits_iff op w).mpr hlimits⟩
  · rintro ⟨op, hop, hzero, hlimits⟩
    rw [hop]
    exact ⟨⟨op, rfl⟩, hzero, (checkLimits_iff op w).mp hlimits⟩

/-- The decoding procedure of 30_encoding R86 refuses the illegal words of R85 and no others. -/
theorem exists_decode_iff {w : Word} : (∃ i, decode w = .ok i) ↔ ¬IllegalCommandWord w := by
  rw [not_illegalCommandWord_iff]
  constructor
  · rintro ⟨i, hi⟩
    obtain ⟨op, hop, hmatch, hlimits, -⟩ := decode_ok.mp hi
    exact ⟨op, hop, (matches_iff_mustBeZero hop hlimits).mp hmatch, hlimits⟩
  · rintro ⟨op, hop, hzero, hlimits⟩
    exact ⟨op.operands w, decode_ok.mpr ⟨op, hop, (matches_iff_mustBeZero hop hlimits).mpr hzero, hlimits, rfl⟩⟩

/-- Settles O3: the decoder refuses exactly the illegal words, and a word it refuses is aborted. -/
theorem illegalWordsAbort : Obligations.IllegalWordsAbort := by
  refine fun w => ⟨fun hillegal s => ?_, exists_decode_iff.mpr⟩
  obtain ⟨i, hi, -⟩ | ⟨-, habort⟩ := runCommand_cases w s
  · exact absurd hillegal (exists_decode_iff.mp ⟨i, hi⟩)
  · exact habort

end Sys2Proof.Laws
end

section
/-! PROOFS. The kernel's functions (40_kernel): exclusive-or (R101), halves (R103), bit selection (R106), rotation of the
low bits (R112). -/

namespace Sys2Proof.Machine

/-! ### Halves (40_kernel R103) -/

theorem splitHalves_even {b : Bytes} (h : b.length % 2 = 0) :
    splitHalves b = (b.take (b.length / 2), b.drop (b.length / 2)) := if_pos h

theorem splitHalves_odd {b : Bytes} (h : b.length % 2 = 1) :
    splitHalves b = (bytesBE (val b / 2 ^ (4 * b.length)) ((b.length + 1) / 2),
      bytesBE (val b % 2 ^ (4 * b.length)) ((b.length + 1) / 2)) := if_neg (by omega)

/-- A number fits into `n` bytes when it has at most `8n` bits. -/
theorem val_bytesBE_of_lt {v k n : Nat} (hv : v < 2 ^ k) (hk : k ≤ 8 * n) : val (bytesBE v n) = v := by
  have hpow : 2 ^ k ≤ 256 ^ n := by
    rw [show (256 : Nat) = 2 ^ 8 from rfl, ← pow_mul]
    exact Nat.pow_le_pow_right (by decide) hk
  rw [val_bytesBE, Nat.mod_eq_of_lt (lt_of_lt_of_le hv hpow)]

/-- The integers of the two halves of an odd length: the high and the low `4n` bits of the source's integer. -/
theorem val_splitHalves_odd {b : Bytes} (h : b.length % 2 = 1) :
    val (splitHalves b).1 = val b / 2 ^ (4 * b.length) ∧ val (splitHalves b).2 = val b % 2 ^ (4 * b.length) := by
  have hlow : val b % 2 ^ (4 * b.length) < 2 ^ (4 * b.length) := Nat.mod_lt _ (by positivity)
  have hhigh : val b / 2 ^ (4 * b.length) < 2 ^ (4 * b.length) := by
    apply Nat.div_lt_of_lt_mul
    calc val b < 256 ^ b.length := val_lt b
      _ = 2 ^ (4 * b.length) * 2 ^ (4 * b.length) := by
        rw [show (256 : Nat) = 2 ^ 8 from rfl, ← pow_mul, ← pow_add]; congr 1; omega
  rw [splitHalves_odd h]
  exact ⟨val_bytesBE_of_lt hhigh (by omega), val_bytesBE_of_lt hlow (by omega)⟩

/-! ### Bit selection (40_kernel R106) -/

theorem permute_none {src : Bytes} {off : Int} {dir : Direction} {table : List Nat}
    (h : ∃ x ∈ table, (x : Int) + off < 0 ∨ 8 * (src.length : Int) ≤ (x : Int) + off) :
    permute src table off dir = none := by
  rw [permute, permuteBits_none h, Option.map_none]

/-- Bit `j` of the packed bits of a table's entries is the bit of entry `j`; the padding is zero (00_scope R12). -/
theorem bitM_pack_map {f : Nat → Bool} {table : List Nat} {j : Nat} (hj : j < 8 * (pack (table.map f)).length) :
    bitM (pack (table.map f)) j = if j < table.length then f (table.getD j 0) else false := by
  rw [bitM_pack _ hj]
  split
  next hlt => simp [List.getD_eq_getElem?_getD, hlt]
  next hge => exact List.getD_eq_default _ _ (by rw [List.length_map]; exact Nat.le_of_not_lt hge)

/-! ### Rotation of the low bits (40_kernel R112) -/

/-- The bits of the rotated integer: rotated in the field, kept above it. -/
theorem testBit_val_rotlLow (src : Bytes) (s : Nat) {w : Nat} (hw1 : 1 ≤ w) (hw : w ≤ 8 * src.length) (j : Nat) :
    (val (rotlLow src s w)).testBit j =
      if j < w then (val src).testBit ((j + (w - s % w)) % w) else (val src).testBit j := by
  have hlow : val src % 2 ^ w < 2 ^ w := Nat.mod_lt _ (by positivity)
  rw [val_rotlLow src s w hw, Nat.testBit_two_pow_mul_add _ (Nat.mod_lt _ (by positivity))]
  split
  next hj =>
    have hm : (j + (w - s % w)) % w < w := Nat.mod_lt _ hw1
    rw [testBit_rot hlow (Nat.mod_lt _ hw1) hj, Nat.testBit_mod_two_pow, decide_eq_true hm, Bool.true_and]
  next hj => rw [Nat.testBit_div_two_pow, Nat.sub_add_cancel (Nat.le_of_not_lt hj)]

/-! ### The statements -/

/-- Settles O23: the byte and the length of a bytewise combination of two lists. -/
theorem xorBufIsBytewise : Obligations.XorBufIsBytewise := fun a b hl =>
  ⟨by rw [length_xorBuf, hl, Nat.min_self], fun _ hi => getD_xorBuf a b hi hl⟩

/-- Settles O24: an even length by taking and dropping, an odd one because either half's integer fits its bytes. -/
theorem splitHalvesOfBytes : Obligations.SplitHalvesOfBytes := by
  intro b
  obtain ⟨hleft, hright⟩ := length_splitHalves b
  refine ⟨fun heven => ⟨by omega, by omega, ?_⟩, fun hodd => ⟨hleft, hright, val_splitHalves_odd hodd⟩⟩
  rw [splitHalves_even heven, List.take_append_drop]

/-- Settles O25: the selected bits, entry by entry, and what `pack` does with them. -/
theorem permuteSelectsBits : Obligations.PermuteSelectsBits := by
  refine fun src table off dir => ⟨permute_none, fun h => ?_⟩
  have hsome := congrArg (Option.map pack) (permuteBits_some (dir := dir) h)
  exact ⟨_, hsome, length_permute hsome, fun j hj => (bitM_pack_map hj).trans (by cases dir <;> rfl)⟩

/-- Settles O26: bit `j` from the last is the bit of weight `2 ^ j`, and those are known of the rotated integer. -/
theorem rotlLowRotatesLowBits : Obligations.RotlLowRotatesLowBits := by
  intro src s w hw1 hw
  refine ⟨length_rotlLow src s w, fun j hj => ?_⟩
  have hm : (j + (w - s % w)) % w < w := Nat.mod_lt _ hw1
  rw [bitL_eq_testBit _ (by rwa [length_rotlLow]), bitL_eq_testBit src hj, bitL_eq_testBit src (by omega),
    testBit_val_rotlLow src s hw1 hw]

end Sys2Proof.Machine
end

section
/-! PROOFS. What holds of every command: the words of its row, and how the checks and operand reads at the head of its
body decide between an abort and a completion (60_exceptions R262, R263, R265). -/

namespace Sys2Proof.Machine

/-! ### The words of a row -/

/-- A row of the opcode map (30_encoding R84 to R86), its extra condition in the spec's terms. -/
theorem rowRuns (op : Op) {legal : Word → Prop} (h : ∀ w, checkLimits op w = .ok () ↔ legal w) :
    RowRuns op.code op.mask op.pattern legal op.operands := by
  intro w s hop
  rw [← h w]
  exact Laws.runCommand_row op w s hop

/-- A row without an extra condition. -/
theorem rowRuns_of_no_limits (op : Op) (h : ∀ w, checkLimits op w = .ok ()) :
    RowRuns op.code op.mask op.pattern (fun _ => True) op.operands :=
  rowRuns op fun w => iff_of_true (h w) trivial

/-! ### How a command ends, in the terms of Safety.lean -/

theorem fails_of_finish {i : Instr} {s : State} {c : ErrorCode} (h : exec i s = s.finish (.error c)) :
    Fails i s c.toBits := h

/-- A check at the head of a body: the command is aborted by it, or goes on behind it (60_exceptions R265). -/
theorem fails_or_of_finish {i : Instr} {s : State} {p : Prop} [Decidable p] {c : ErrorCode}
    {body : Except ErrorCode State} {Q : Prop} (hexec : exec i s = s.finish (if p then .error c else body))
    (hrest : ¬p → exec i s = s.finish body → Q) : if p then Fails i s c.toBits else Q := by
  split
  next h => exact fails_of_finish (by rwa [if_pos h] at hexec)
  next h => exact hrest h (by rwa [if_neg h] at hexec)

theorem writes_of_finish {i : Instr} {s : State} {rd : BufReg} {v : Bytes} (hv : v.length ≤ 16)
    (h : exec i s = s.finish (.ok (s.writeBuf rd v))) : Writes i s rd v :=
  ⟨_, h, wroteBuf_writeBuf s rd hv⟩

/-! ### Checks and operands at the head of a body -/

theorem State.readBuf_bind {α : Type} (s : State) (n : BufReg) (f : Bytes → Except ErrorCode α) :
    (s.readBuf n >>= f) = if 16 < s.bufs[n].len.toNat then .error .sizeMismatch else f s.bufs[n].bytes := by
  by_cases h : 16 < s.bufs[n].len.toNat
  · rw [State.readBuf_error h, if_pos h]; rfl
  · rw [State.readBuf_ok (Nat.le_of_not_lt h), if_neg h]; rfl

theorem check_bind {α : Type} (p : Bool) (c : ErrorCode) (f : Unit → Except ErrorCode α) :
    (check p c >>= f) = if p then f () else .error c := by
  cases p <;> rfl

end Sys2Proof.Machine
end

section
/-! PROOFS. The kernel's commands (40_kernel R102, R104, R105, R108, R113): which words run them, each error, and the
completed state. -/

namespace Sys2Proof.Machine

/-! ### Each command by the conditions of its checks -/

/-- Two sources that must have one length (40_kernel R102, R105). -/
theorem State.readTwo_bind {α : Type} (s : State) (n m : BufReg) (f : Bytes → Bytes → Except ErrorCode α) :
    (do let a ← s.readBuf n
        let b ← s.readBuf m
        check (a.length = b.length) .sizeMismatch
        f a b) =
      if 16 < s.bufs[n].len.toNat ∨ 16 < s.bufs[m].len.toNat ∨ s.bufs[n].len ≠ s.bufs[m].len then .error .sizeMismatch
      else f s.bufs[n].bytes s.bufs[m].bytes := by
  rw [State.readBuf_bind, State.readBuf_bind, check_bind]
  by_cases hn : 16 < s.bufs[n].len.toNat
  · rw [if_pos hn, if_pos (.inl hn)]
  by_cases hm : 16 < s.bufs[m].len.toNat
  · rw [if_neg hn, if_pos hm, if_pos (.inr (.inl hm))]
  rw [if_neg hn, if_neg hm, Buf.length_bytes_of_le (Nat.le_of_not_lt hn), Buf.length_bytes_of_le (Nat.le_of_not_lt hm)]
  simp only [hn, hm, false_or, ne_eq, ite_not, BitVec.toNat_inj, decide_eq_true_eq]

theorem exec_xor (s : State) (rd rs1 rs2 : BufReg) :
    exec (.xor rd rs1 rs2) s = s.finish
      (if 16 < s.bufs[rs1].len.toNat ∨ 16 < s.bufs[rs2].len.toNat ∨ s.bufs[rs1].len ≠ s.bufs[rs2].len then
        .error .sizeMismatch
      else .ok (s.writeBuf rd (xorBuf s.bufs[rs1].bytes s.bufs[rs2].bytes))) :=
  congrArg s.finish (s.readTwo_bind rs1 rs2 _)

theorem exec_split (s : State) (rd rs1 rs2 : BufReg) :
    exec (.split rd rs1 rs2) s = s.finish
      (if rd = rs2 then .error .illegalCommand
      else if 16 < s.bufs[rs1].len.toNat then .error .sizeMismatch
      else .ok ((s.writeBuf rd (splitHalves s.bufs[rs1].bytes).1).writeBuf rs2 (splitHalves s.bufs[rs1].bytes).2)) := by
  refine congrArg s.finish ?_
  simp only [check_bind, State.readBuf_bind, ne_eq, decide_eq_true_eq, ite_not]
  rfl

/-- The three conditions of 40_kernel R105 in one: with equal lengths the result is twice as long as either source, so
a length above 8 is too long. -/
theorem exec_join (s : State) (rd rs1 rs2 : BufReg) :
    exec (.join rd rs1 rs2) s = s.finish
      (if 8 < s.bufs[rs1].len.toNat ∨ s.bufs[rs1].len ≠ s.bufs[rs2].len then .error .sizeMismatch
      else .ok (s.writeBuf rd (s.bufs[rs1].bytes ++ s.bufs[rs2].bytes))) := by
  refine congrArg s.finish ((s.readTwo_bind rs1 rs2 _).trans ?_)
  rw [check_bind]
  by_cases hne : s.bufs[rs1].len ≠ s.bufs[rs2].len
  · rw [if_pos (.inr (.inr hne)), if_pos (.inr hne)]
  have heq : s.bufs[rs1].len = s.bufs[rs2].len := not_not.mp hne
  by_cases h16 : 16 < s.bufs[rs1].len.toNat
  · rw [if_pos (.inl h16), if_pos (.inl (by omega))]
  rw [if_neg (not_or.mpr ⟨h16, not_or.mpr ⟨heq ▸ h16, hne⟩⟩), Buf.length_bytes_of_le (Nat.le_of_not_lt h16)]
  by_cases h8 : 8 < s.bufs[rs1].len.toNat
  · rw [if_neg (by rw [decide_eq_true_eq]; omega), if_pos (.inl h8)]
  · rw [if_pos (by rw [decide_eq_true_eq]; omega), if_neg (not_or.mpr ⟨h8, hne⟩)]; rfl

@[simp] theorem State.length_permTable (s : State) : s.permTable.length = s.permLength := by simp [State.permTable]

theorem exec_perm (s : State) (rd rs1 : BufReg) :
    exec (.perm rd rs1) s = s.finish
      (if 16 < s.bufs[rs1].len.toNat ∨ 128 < s.permLength then .error .sizeMismatch
      else if 1024 < s.permBase + s.permLength then .error .malformedTable
      else match permute s.bufs[rs1].bytes s.permTable s.permOffset s.permDirection with
        | none => .error .malformedTable
        | some r => .ok (s.writeBuf rd r)) := by
  refine congrArg s.finish ?_
  simp only [check_bind, State.readBuf_bind, decide_eq_true_eq]
  by_cases h16 : 16 < s.bufs[rs1].len.toNat
  · rw [if_pos h16, if_pos (.inl h16)]
  by_cases hlen : 128 < s.permLength
  · rw [if_neg h16, if_neg (Nat.not_le.mpr hlen), if_pos (.inr hlen)]
  rw [if_neg h16, if_pos (Nat.le_of_not_lt hlen), if_neg (not_or.mpr ⟨h16, hlen⟩)]
  simp only [← Nat.not_lt, ite_not]
  rfl

theorem exec_rotl (s : State) (rd rs1 : BufReg) (amount width : BitVec 8) :
    exec (.rotl rd rs1 amount width) s = s.finish
      (if 16 < s.bufs[rs1].len.toNat ∨ width = 0 ∨ 8 * s.bufs[rs1].len.toNat < width.toNat then .error .sizeMismatch
      else .ok (s.writeBuf rd (rotlLow s.bufs[rs1].bytes amount.toNat width.toNat))) := by
  refine congrArg s.finish ?_
  rw [State.readBuf_bind, check_bind]
  by_cases h : 16 < s.bufs[rs1].len.toNat
  · rw [if_pos h, if_pos (.inl h)]
  have hzero : width = 0 ↔ width.toNat = 0 := BitVec.toNat_eq
  rw [if_neg h, Buf.length_bytes_of_le (Nat.le_of_not_lt h)]
  simp only [h, hzero, false_or, ne_eq, Bool.and_eq_true, decide_eq_true_eq, ← Nat.not_lt, ← not_or, ite_not]
  rfl

/-! ### The statements -/

/-- Settles O29: the body of XOR, and the result is no longer than a source. -/
theorem xorCommand : Obligations.XorCommand := by
  refine ⟨rowRuns_of_no_limits .xor fun _ => rfl, fun s rd rs1 rs2 => ?_⟩
  refine fails_or_of_finish (exec_xor s rd rs1 rs2) fun _ hexec => writes_of_finish ?_ hexec
  calc (xorBuf s.bufs[rs1].bytes s.bufs[rs2].bytes).length
    _ ≤ s.bufs[rs1].bytes.length := (length_xorBuf _ _).trans_le (Nat.min_le_left _ _)
    _ ≤ 16 := Buf.length_bytes_le _

/-- Settles O30: the body of SPLIT; the second write leaves the first, since the destinations differ. -/
theorem splitCommand : Obligations.SplitCommand := by
  refine ⟨rowRuns .split fun w => ?_, fun s rd rs1 rs2 => ?_⟩
  · simp only [checkLimits, ite_eq_right_iff, reduceCtorEq, imp_false]
    rfl
  refine fails_or_of_finish (exec_split s rd rs1 rs2) fun hne hexec => ?_
  refine fails_or_of_finish hexec fun _ hexec => ?_
  obtain ⟨hl, hr⟩ := length_splitHalves s.bufs[rs1].bytes
  have hle := Buf.length_bytes_le s.bufs[rs1]
  refine ⟨_, hexec, ?_, ?_, fun n hrd hrs2 => ?_, rfl⟩
  · rw [State.flagSuccess_bufs, State.writeBuf_other _ _ hne, State.writeBuf_self]
    exact Buf.ofBytes_holds (by omega)
  · rw [State.flagSuccess_bufs, State.writeBuf_self]
    exact Buf.ofBytes_holds (by omega)
  · rw [State.flagSuccess_bufs, State.writeBuf_other _ _ hrs2, State.writeBuf_other _ _ hrd]

/-- Settles O31: the body of JOIN, whose sources have the same length of at most 8. -/
theorem joinCommand : Obligations.JoinCommand := by
  refine ⟨rowRuns_of_no_limits .join fun _ => rfl, fun s rd rs1 rs2 => ?_⟩
  refine fails_or_of_finish (exec_join s rd rs1 rs2) fun h hexec => writes_of_finish ?_ hexec
  obtain ⟨h8, hne⟩ := not_or.mp h
  rw [List.length_append, Buf.length_bytes, Buf.length_bytes, ← not_not.mp hne]
  omega

/-- Settles O32: the body of PERM; the table's entries decide whether `permute` fails (40_kernel R106). -/
theorem permCommand : Obligations.PermCommand := by
  refine ⟨rowRuns_of_no_limits .perm fun _ => rfl, ?_⟩
  intro s rd rs1 tlen tbase off dir table htlen htbase hoff hdir ht
  obtain rfl : tlen = s.permLength := htlen
  obtain rfl : tbase = s.permBase := htbase
  obtain rfl : off = s.permOffset := hoff
  obtain rfl : dir = s.permDirection := hdir
  obtain rfl : table = s.permTable := ht
  refine fails_or_of_finish (exec_perm s rd rs1) fun hsize hexec => ?_
  refine fails_or_of_finish hexec fun _ hexec => ?_
  obtain ⟨h16, h128⟩ := not_or.mp hsize
  rw [← Buf.length_bytes_of_le (Nat.le_of_not_lt h16)]
  split
  next hentry =>
    rw [permute_none hentry] at hexec
    exact fails_of_finish hexec
  next hentry =>
    have hentries : ∀ x ∈ s.permTable, 0 ≤ (x : Int) + s.permOffset ∧
        (x : Int) + s.permOffset < 8 * (s.bufs[rs1].bytes.length : Int) := fun x hx => by
      by_contra hx'
      exact hentry ⟨x, hx, by omega⟩
    obtain ⟨r, hr, hlen, -⟩ := (permuteSelectsBits _ _ _ s.permDirection).2 hentries
    rw [s.length_permTable] at hlen
    rw [hr] at hexec
    exact ⟨r, hr, hlen, writes_of_finish (by omega) hexec⟩

/-- Settles O33: the body of ROTL, whose result is as long as its source. -/
theorem rotlCommand : Obligations.RotlCommand := by
  refine ⟨rowRuns_of_no_limits .rotl fun _ => rfl, fun s rd rs1 amount width => ?_⟩
  refine fails_or_of_finish (exec_rotl s rd rs1 amount width) fun _ hexec => writes_of_finish ?_ hexec
  rw [length_rotlLow]
  exact Buf.length_bytes_le _

end Sys2Proof.Machine
end

section
/-! PROOFS. The Feistel network's rounds, one key at a time (41_feistel R140). -/

namespace Sys2Proof.Machine

@[simp] theorem feistelRounds_nil {h : Nat} {κ : Type} (f : BitVec h → κ → BitVec h) (l r : BitVec h) :
    feistelRounds f [] l r = (l, r) := rfl

@[simp] theorem feistelRounds_cons {h : Nat} {κ : Type} (f : BitVec h → κ → BitVec h) (k : κ) (ks : List κ)
    (l r : BitVec h) : feistelRounds f (k :: ks) l r = feistelRounds f ks r (l ^^^ f r k) := rfl

/-- Settles O35: the rounds compose (`feistelRounds_append`), and the last list holds one key. -/
theorem feistelRoundsRecurrence : Obligations.FeistelRoundsRecurrence := by
  intro h κ f l r
  refine ⟨feistelRounds_nil f l r, fun ks k => ?_⟩
  rw [feistelRounds_append, feistelRounds_cons, feistelRounds_nil]

end Sys2Proof.Machine
end

section
/-! PROOFS. More heads of a command's body: the rows with a round index, and the operands that a command reads with a
fixed length (30_encoding R83, R85; 41_feistel R146). -/

namespace Sys2Proof.Machine

/-- A row whose extra condition is a round index within its limits. -/
theorem rowRuns_of_round (op : Op) (rounds : Nat)
    (h : ∀ w, checkLimits op w =
      if 1 ≤ (immField w).toNat ∧ (immField w).toNat ≤ rounds then .ok () else .error .roundIndex) :
    RowRuns op.code op.mask op.pattern (roundIn rounds) op.operands :=
  rowRuns op fun w => by
    simp only [h, ite_eq_left_iff, reduceCtorEq, imp_false, not_not]
    rfl

theorem fails_of_roundIndex {i : Instr} {s : State} {rounds : Nat} {round : BitVec 16}
    {body : Fin rounds → Except ErrorCode State} (h : ¬(1 ≤ round.toNat ∧ round.toNat ≤ rounds))
    (hexec : exec i s = s.finish (roundIndex rounds round >>= body)) : Fails i s 3 :=
  fails_of_finish (c := .illegalCommand) (by rwa [roundIndex_error h] at hexec)

theorem finish_roundIndex {s : State} {rounds : Nat} {round : BitVec 16} {i : Fin rounds} (h : round.toNat = i.val + 1)
    (body : Fin rounds → Except ErrorCode State) : s.finish (roundIndex rounds round >>= body) = s.finish (body i) := by
  rw [roundIndex_eq h]
  rfl

theorem State.readSized_bind {α : Type} (s : State) (n : BufReg) {k : Nat} (hk : k ≤ 16)
    (f : Bytes → Except ErrorCode α) :
    (s.readSized n k >>= f) =
      if s.bufs[n].len ≠ BitVec.ofNat 5 k then .error .sizeMismatch else f s.bufs[n].bytes := by
  rw [s.readSized_eq' n hk, apply_ite (· >>= f)]
  rfl

/-- A register read with a fixed length: another length aborts the command, and with this one its body goes on with
that many bytes. -/
theorem fails_or_of_readSized {i : Instr} {s : State} {n : BufReg} {k : Nat} (hk : k ≤ 16)
    {body : Bytes → Except ErrorCode State} {Q : Prop} (hexec : exec i s = s.finish (s.readSized n k >>= body))
    (hrest : s.bufs[n].bytes.length = k → exec i s = s.finish (body s.bufs[n].bytes) → Q) :
    if s.bufs[n].len ≠ BitVec.ofNat 5 k then Fails i s 1 else Q := by
  rw [s.readSized_bind n hk] at hexec
  refine fails_or_of_finish hexec fun hlen => hrest ?_
  rw [Buf.length_bytes, not_not.mp hlen, BitVec.toNat_ofNat]
  omega

end Sys2Proof.Machine
end

section
/-! PROOFS. The DES functions: the substitution layer (42_des R167, R180), the known answers (R183), and a Feistel round
as the commands see it, in bytes (41_feistel R144). -/

namespace Sys2Proof.Machine

/-! ### The substitution layer (42_des R167, R180) -/

/-- The eight S-boxes (42_des R168 to R175), in the order of the groups. -/
def sboxes : List (List Nat) := [sbox1, sbox2, sbox3, sbox4, sbox5, sbox6, sbox7, sbox8]

theorem sboxes_lt (j : Fin 8) : ∀ x ∈ sboxes.getD j.val [], x < 16 := by decide +revert +kernel

/-- The column of a group in the spec's terms: its inner four bits, the second one the most significant. -/
theorem toNat_inner_bits (g : BitVec 6) : (g.extractLsb' 1 4).toNat =
    8 * (g.getMsbD 1).toNat + 4 * (g.getMsbD 2).toNat + 2 * (g.getMsbD 3).toNat + (g.getMsbD 4).toNat := by
  decide +revert

theorem toNat_sboxOut {table : List Nat} (ht : ∀ x ∈ table, x < 16) (g : BitVec 6) : (sboxOut table g).toNat =
    table.getD (16 * (2 * (g.getMsbD 0).toNat + (g.getMsbD 5).toNat) + (8 * (g.getMsbD 1).toNat +
      4 * (g.getMsbD 2).toNat + 2 * (g.getMsbD 3).toNat + (g.getMsbD 4).toNat)) 0 := by
  rw [sboxOut, toNat_inner_bits, BitVec.toNat_ofNat, Nat.mod_eq_of_lt]
  generalize 16 * _ + _ = a
  by_cases ha : a < table.length
  · rw [List.getD_eq_getElem _ _ ha]
    exact ht _ (List.getElem_mem ha)
  · rw [List.getD_eq_default _ _ (Nat.le_of_not_lt ha)]
    decide

theorem getMsbD_desGroup (x : BitVec 48) {j k : Nat} (hj : j < 8) (hk : k < 6) :
    (desGroup x (j + 1)).getMsbD k = x.getMsbD (6 * j + k) := by
  rw [desGroup, BitVec.getMsbD_extractLsb', decide_eq_true hk, decide_eq_true (by omega), Bool.true_and, Bool.true_and]
  congr 1
  omega

/-- Nibble `j` of eight joined ones, the first in the top bits. -/
theorem extractLsb'_append_nibbles (a b c d e f g h : BitVec 4) (j : Fin 8) :
    (a ++ b ++ c ++ d ++ e ++ f ++ g ++ h).extractLsb' (28 - 4 * j.val) 4 = [a, b, c, d, e, f, g, h].getD j.val 0 := by
  fin_cases j <;>
    simp (disch := decide) only [BitVec.extractLsb'_append_eq_of_le, BitVec.extractLsb'_append_eq_of_add_le] <;>
    exact BitVec.extractLsb'_eq_self

theorem desS_nibble (x : BitVec 48) (j : Fin 8) :
    (desS x).extractLsb' (28 - 4 * j.val) 4 = sboxOut (sboxes.getD j.val []) (desGroup x (j.val + 1)) := by
  refine (extractLsb'_append_nibbles _ _ _ _ _ _ _ _ j).trans ?_
  fin_cases j <;> rfl

/-- Settles O39: each output is the S-box of its group, whose bits are the input's from six times the group's index. -/
theorem sboxLayerAddressing : Obligations.SboxLayerAddressing := by
  intro x j g
  have hbit (k : Nat) (hk : k < 6) : ((desGroup x (j.val + 1)).getMsbD k).toNat = g (k + 1) := by
    rw [getMsbD_desGroup x j.isLt hk]
    rfl
  rw [desS_nibble, toNat_sboxOut (sboxes_lt j)]
  simp only [hbit, Nat.reduceLT, Nat.reduceAdd]
  rfl

/-! ### Known answers (42_des R183) -/

/-- Settles O42: sixteen rounds on each of the four blocks. -/
theorem desKnownAnswers : Obligations.DesKnownAnswers := by
  refine ⟨?_, ?_, ?_, ?_⟩ <;> decide +kernel

/-! ### One round on a block of bytes (41_feistel R144) -/

/-- A round in bytes: the right half moves to the left, and the left half is mixed with the round function of the right
one. -/
theorem bytesOf_feistelStep {κ : Type} {n : Nat} {b : Bytes} (hb : b.length = n + n)
    (f : BitVec (8 * n) → κ → BitVec (8 * n)) (k : κ) :
    bytesOf (feistelStep f k (bitsOf (8 * n + 8 * n) b)) =
      b.drop n ++ bytesOf (bitsOf (8 * n) (b.take n) ^^^ f (bitsOf (8 * n) (b.drop n)) k) := by
  obtain ⟨hl, hr⟩ := halves_bitsOf hb
  have hn : (b.drop n).length = n := by rw [List.length_drop]; omega
  rw [feistelStep, hl, hr, bytesOf_append (by omega), bytesOf_bitsOf _ (by omega)]

end Sys2Proof.Machine
end

section
/-! PROOFS. The DES commands (42_des R184 to R190): which words run them, each error, and the completed state. -/

namespace Sys2Proof.Machine

/-- A command that needs the DES round keys: without a key it is aborted, and with one its body goes on with DKS. -/
theorem fails_or_of_desKeys {i : Instr} {s : State} {body : Vector (BitVec 48) 16 → Except ErrorCode State} {Q : Prop}
    (hexec : exec i s = s.finish (s.desKeys >>= body)) (hrest : exec i s = s.finish (body s.dks) → Q) :
    if s.dkv = false then Fails i s 4 else Q := by
  rw [State.desKeys_eq] at hexec
  cases h : s.dkv
  · rw [h] at hexec
    exact fails_of_finish (c := .keyNotSet) hexec
  · rw [h] at hexec
    exact hrest hexec

/-- Settles O43: the only check is the key's length, and the body then loads DKS and DKV. -/
theorem desKeyCommand : Obligations.DesKeyCommand := by
  refine ⟨rowRuns_of_no_limits .desKey fun _ => rfl, fun s rs1 => ?_⟩
  exact fails_or_of_readSized (by decide) rfl fun _ hexec => hexec

/-- Settles O44: the key is checked before the block's length, and a block is 8 bytes. -/
theorem desEncCommand : Obligations.DesEncCommand := by
  refine ⟨rowRuns_of_no_limits .desEnc fun _ => rfl, fun s rd rs1 => fails_or_of_desKeys rfl fun hexec => ?_⟩
  exact fails_or_of_readSized (by decide) hexec fun _ hexec => writes_of_finish (by simp) hexec

/-- Settles O45: the checks of DES_ENC, then the same network with the round keys in reverse order. -/
theorem desDecCommand : Obligations.DesDecCommand := by
  refine ⟨rowRuns_of_no_limits .desDec fun _ => rfl, fun s rd rs1 => fails_or_of_desKeys rfl fun hexec => ?_⟩
  exact fails_or_of_readSized (by decide) hexec fun _ hexec => writes_of_finish (by simp) hexec

/-- Settles O46: the index is checked before the key, and a round key is 6 bytes. -/
theorem desRkCommand : Obligations.DesRkCommand := by
  refine ⟨rowRuns_of_round .desRk 16 fun _ => rfl, fun s rd round h => fails_of_roundIndex h rfl,
    fun s rd round i h => ?_⟩
  exact fails_or_of_desKeys (finish_roundIndex h _) fun hexec => writes_of_finish (by simp) hexec

/-- Settles O47: index, key and length are checked in this order, and the result is 4 bytes. -/
theorem desFCommand : Obligations.DesFCommand := by
  refine ⟨rowRuns_of_round .desF 16 fun _ => rfl, fun s rd rs1 round h => fails_of_roundIndex h rfl,
    fun s rd rs1 round i h => ?_⟩
  refine fails_or_of_desKeys (finish_roundIndex h _) fun hexec => ?_
  exact fails_or_of_readSized (by decide) hexec fun _ hexec => writes_of_finish (by simp) hexec

/-- Settles O48: the checks of DES_F for an 8-byte source, then one round, in bytes by `bytesOf_feistelStep`. -/
theorem desRndCommand : Obligations.DesRndCommand := by
  refine ⟨rowRuns_of_round .desRnd 16 fun _ => rfl, fun s rd rs1 round h => fails_of_roundIndex h rfl,
    fun s rd rs1 round i h => ?_⟩
  refine fails_or_of_desKeys (finish_roundIndex h _) fun hexec => ?_
  refine fails_or_of_readSized (by decide) hexec fun hlen hexec => ?_
  rw [← bytesOf_feistelStep (n := 4) hlen desF s.dks[i]]
  exact writes_of_finish (by simp) hexec

/-- Settles O49: the only check is the source's length, and the result is 4 bytes. -/
theorem desSboxCommand : Obligations.DesSboxCommand := by
  refine ⟨rowRuns_of_no_limits .desSbox fun _ => rfl, fun s rd rs1 => ?_⟩
  exact fails_or_of_readSized (by decide) rfl fun _ hexec => writes_of_finish (by simp) hexec

end Sys2Proof.Machine
end

section
/-! PROOFS. The DEAL functions: the default key schedule (43_deal R224), and a round as DEAL_RND gives it, in bytes
(R232). -/

namespace Sys2Proof.Machine

/-- Settles O51: the two halves of the key are K1 and K2, and the schedule then chains as R224 lists it. -/
theorem dealDefaultSchedule : Obligations.DealDefaultSchedule := by
  refine ⟨rfl, fun key k1 k2 hkey => ?_⟩
  obtain rfl : leftHalf (h := 64) key = k1 := hkey ▸ leftHalf_append k1 k2
  obtain rfl : rightHalf (h := 64) key = k2 := hkey ▸ rightHalf_append _ k2
  exact ⟨rfl, rfl, rfl, rfl, rfl, rfl⟩

theorem bytesOf_bitsOf_xor {w : Nat} {b : Bytes} (hb : 8 * b.length = w) (x : BitVec w) :
    bytesOf (bitsOf w b ^^^ x) = xorBuf b (bytesOf x) := by
  rw [bytesOf_xor (by omega), bytesOf_bitsOf b hb]

/-- A round in bytes, the left half mixed byte by byte. -/
theorem bytesOf_feistelStep_xorBuf {κ : Type} {n : Nat} {b : Bytes} (hb : b.length = n + n)
    (f : BitVec (8 * n) → κ → BitVec (8 * n)) (k : κ) :
    bytesOf (feistelStep f k (bitsOf (8 * n + 8 * n) b)) =
      b.drop n ++ xorBuf (b.take n) (bytesOf (f (bitsOf (8 * n) (b.drop n)) k)) := by
  have hleft : (b.take n).length = n := by rw [List.length_take]; omega
  rw [bytesOf_feistelStep hb, bytesOf_bitsOf_xor (by rw [hleft])]

end Sys2Proof.Machine
end

section
/-! PROOFS. The DEAL commands (43_deal R227 to R232): which words run them, each error, and the completed state. -/

namespace Sys2Proof.Machine

/-- A command that needs the DEAL round keys: without a key it is aborted, and with one its body goes on with EKS. -/
theorem fails_or_of_dealKeys {i : Instr} {s : State} {body : Vector (BitVec 64) 6 → Except ErrorCode State} {Q : Prop}
    (hexec : exec i s = s.finish (s.dealKeys >>= body)) (hrest : exec i s = s.finish (body s.eks) → Q) :
    if s.ekv = false then Fails i s 4 else Q := by
  rw [State.dealKeys_eq] at hexec
  cases h : s.ekv
  · rw [h] at hexec
    exact fails_of_finish (c := .keyNotSet) hexec
  · rw [h] at hexec
    exact hrest hexec

/-- Settles O52: the only check is the key's length, and the body then loads EKS and EKV. -/
theorem dealKeyCommand : Obligations.DealKeyCommand := by
  refine ⟨rowRuns_of_no_limits .dealKey fun _ => rfl, fun s rs1 => ?_⟩
  exact fails_or_of_readSized (by decide) rfl fun _ hexec => hexec

/-- Settles O53: the key is checked before the block's length, and a block is 16 bytes. -/
theorem dealEncCommand : Obligations.DealEncCommand := by
  refine ⟨rowRuns_of_no_limits .dealEnc fun _ => rfl, fun s rd rs1 => fails_or_of_dealKeys rfl fun hexec => ?_⟩
  exact fails_or_of_readSized (by decide) hexec fun _ hexec => writes_of_finish (by simp) hexec

/-- Settles O54: the checks of DEAL_ENC, then the same network with the round keys in reverse order. -/
theorem dealDecCommand : Obligations.DealDecCommand := by
  refine ⟨rowRuns_of_no_limits .dealDec fun _ => rfl, fun s rd rs1 => fails_or_of_dealKeys rfl fun hexec => ?_⟩
  exact fails_or_of_readSized (by decide) hexec fun _ hexec => writes_of_finish (by simp) hexec

/-- Settles O55: the index is checked before the key, and a round key is 8 bytes. -/
theorem dealRkCommand : Obligations.DealRkCommand := by
  refine ⟨rowRuns_of_round .dealRk 6 fun _ => rfl, fun s rd round h => fails_of_roundIndex h rfl,
    fun s rd round i h => ?_⟩
  exact fails_or_of_dealKeys (finish_roundIndex h _) fun hexec => writes_of_finish (by simp) hexec

/-- Settles O56: index, key and length are checked in this order, and the result is 8 bytes. -/
theorem dealFCommand : Obligations.DealFCommand := by
  refine ⟨rowRuns_of_round .dealF 6 fun _ => rfl, fun s rd rs1 round h => fails_of_roundIndex h rfl,
    fun s rd rs1 round i h => ?_⟩
  refine fails_or_of_dealKeys (finish_roundIndex h _) fun hexec => ?_
  exact fails_or_of_readSized (by decide) hexec fun _ hexec => writes_of_finish (by simp) hexec

/-- Settles O57: the checks of DEAL_F for a 16-byte source, then one round, in bytes by `bytesOf_feistelStep_xorBuf`. -/
theorem dealRndCommand : Obligations.DealRndCommand := by
  refine ⟨rowRuns_of_round .dealRnd 6 fun _ => rfl, fun s rd rs1 round h => fails_of_roundIndex h rfl,
    fun s rd rs1 round i h => ?_⟩
  refine fails_or_of_dealKeys (finish_roundIndex h _) fun hexec => ?_
  refine fails_or_of_readSized (by decide) hexec fun hlen hexec => ?_
  have hround := bytesOf_feistelStep_xorBuf (n := 8) hlen dealF s.eks[i]
  exact hround ▸ writes_of_finish (by simp) hexec

end Sys2Proof.Machine
end

section
/-! PROOFS. Noninterference: a command whose body does not see a change of the state does the same on both sides of it;
the DES and the DEAL key state are such changes for each other's commands (43_deal R226). -/

namespace Sys2Proof.Machine

/-- The command neither reads nor writes what `φ` replaces: run behind `φ`, it leaves what `φ` makes of its result. -/
def CommutesWith (i : Instr) (φ : State → State) : Prop :=
  ∀ s t, exec i s = .next t → exec i (φ s) = .next (φ t)

/-- Another DES key state (10_state R29, R30). -/
def State.withDesState (v : Bool) (ks : Vector (BitVec 48) 16) (s : State) : State := { s with dkv := v, dks := ks }

/-- Another DEAL key state (10_state R31, R32). -/
def State.withDealState (v : Bool) (ks : Vector (BitVec 64) 6) (s : State) : State := { s with ekv := v, eks := ks }

/-- A command whose body commutes with a change that no flag sees commutes with it. -/
theorem commutesWith_of_finish {i : Instr} {φ : State → State} {body : State → Except ErrorCode State}
    (hexec : ∀ s, exec i s = s.finish (body s)) (hbody : ∀ s, body (φ s) = φ <$> body s)
    (herror : ∀ s c, (φ s).flagError c = φ (s.flagError c)) (hok : ∀ s, (φ s).flagSuccess = φ s.flagSuccess) :
    CommutesWith i φ := by
  intro s t h
  rw [hexec] at h ⊢
  rw [hbody]
  rcases s.finish_cases (body s) with ⟨c, hb, hnext⟩ | ⟨u, hb, hnext⟩
  · obtain rfl : s.flagError c = t := by injection hnext.symm.trans h
    rw [hb]
    exact congrArg _ (herror s c)
  · obtain rfl : u.flagSuccess = t := by injection hnext.symm.trans h
    rw [hb]
    exact congrArg _ (hok u)

/-- A change that is none before the command is none after it. -/
theorem CommutesWith.fixes {i : Instr} {φ : State → State} (h : CommutesWith i φ) {s t : State} (hs : φ s = s)
    (ht : exec i s = .next t) : φ t = t := by
  have hφ := h s t ht
  rw [hs, ht] at hφ
  injection hφ with hφ
  exact hφ.symm

/-- Settles O15: every body reads its operands from the other fields, so it commutes with the change of the other
cipher's key state; that it keeps this state is the change to the value it has already. -/
theorem keyStatesAreSeparate : Obligations.KeyStatesAreSeparate := by
  refine ⟨fun i s v ks hi => ?_, fun i s v ks hi => ?_⟩
  · have hcomm (v : Bool) (ks : Vector (BitVec 48) 16) : CommutesWith i (State.withDesState v ks) := by
      cases i with
      | dealKey rs1 | dealEnc rd rs1 | dealDec rd rs1 | dealRk rd round | dealF rd rs1 round | dealRnd rd rs1 round =>
        refine commutesWith_of_finish (fun _ => rfl) (fun s => ?_) (fun _ _ => rfl) fun _ => rfl
        simp only [map_bind, map_pure]
        rfl
      | _ => exact False.elim hi
    obtain ⟨t, ht⟩ := exec_next i s
    have hsame : t.withDesState s.dkv s.dks = t := (hcomm s.dkv s.dks).fixes rfl ht
    have hdkv := congrArg State.dkv hsame
    have hdks := congrArg State.dks hsame
    exact ⟨t, ht, hdkv.symm, hdks.symm, hcomm v ks s t ht⟩
  · have hcomm (v : Bool) (ks : Vector (BitVec 64) 6) : CommutesWith i (State.withDealState v ks) := by
      cases i with
      | desKey rs1 | desEnc rd rs1 | desDec rd rs1 | desRk rd round | desF rd rs1 round | desRnd rd rs1 round
      | desSbox rd rs1 =>
        refine commutesWith_of_finish (fun _ => rfl) (fun s => ?_) (fun _ _ => rfl) fun _ => rfl
        simp only [map_bind, map_pure]
        rfl
      | _ => exact False.elim hi
    obtain ⟨t, ht⟩ := exec_next i s
    have hsame : t.withDealState s.ekv s.eks = t := (hcomm s.ekv s.eks).fixes rfl ht
    have hekv := congrArg State.ekv hsame
    have heks := congrArg State.eks hsame
    exact ⟨t, ht, hekv.symm, heks.symm, hcomm v ks s t ht⟩

end Sys2Proof.Machine
end

section
/-! PROOFS. The control command (44_control R250): what CLRERR clears, and that it alone lowers a sticky flag. -/

namespace Sys2Proof.Machine

/-- A completed command other than CLRERR keeps both sticky flags (60_exceptions R263). -/
theorem Completed.sticky {i : Instr} {s t : State} (hc : Completed i s t) (hi : i ≠ .clrErr) :
    t.anyErr = s.anyErr ∧ t.busErr = s.busErr := by
  cases hc with
  | wrote | wroteTwo | desKey | dealKey => exact ⟨rfl, rfl⟩
  | clrErr => exact absurd rfl hi

/-- Settles O59: an aborted command sets ANYERR and keeps BUSERR, and a completed one other than CLRERR keeps both. -/
theorem clrErrCommand : Obligations.ClrErrCommand := by
  refine ⟨rowRuns_of_no_limits .clrErr fun _ => rfl, fun _ => rfl, fun i s t hi ht => ?_⟩
  obtain ⟨c, h⟩ | ⟨u, h, hc⟩ := exec_cases i s
  · obtain rfl : s.flagError c = t := by injection h.symm.trans ht
    exact ⟨fun _ => rfl, id⟩
  · obtain rfl : u = t := by injection h.symm.trans ht
    obtain ⟨hany, hbus⟩ := hc.sticky hi
    exact ⟨hany.trans, hbus.trans⟩

end Sys2Proof.Machine
end

section
/-! PROOFS. How a command ends (60_exceptions R262): a completed one leaves ERR 0, so a non-zero ERR tells an aborted one,
which wrote its flags alone. -/

namespace Sys2Proof.Machine

/-- A completed command leaves ERR 0 (60_exceptions R263). -/
theorem Completed.err_eq_zero {i : Instr} {s t : State} (hc : Completed i s t) : t.err = 0 := by
  cases hc with
  | wrote | wroteTwo => exact State.flagSuccess_err _
  | desKey | dealKey | clrErr => rfl

/-- Settles O12: a command that ends with a non-zero ERR has not completed, and an aborted one leaves the state before it
with its flags. -/
theorem abortChangesOnlyStatus : Obligations.AbortChangesOnlyStatus := by
  intro i s t ht herr
  obtain ⟨c, h⟩ | ⟨u, h, hc⟩ := exec_cases i s
  · obtain rfl : s.flagError c = t := by injection h.symm.trans ht
    rfl
  · obtain rfl : u = t := by injection h.symm.trans ht
    exact absurd hc.err_eq_zero herr

end Sys2Proof.Machine
end

section
/-! PROOFS. The encoder and the decoder undo each other (30_encoding R80 to R88). -/

namespace Sys2Proof.Laws

open Sys2Proof.Machine

/-- Every legal command's word matches its row of the opcode map (30_encoding R84). -/
theorem encode_matches_row (i : Instr) : EncodeMatchesRow.Statement i := by
  cases i with
  | xor rd rs1 rs2 => exact EncodeMatchesRow.xor rd rs1 rs2
  | split rd rs1 rs2 => exact EncodeMatchesRow.split rd rs1 rs2
  | join rd rs1 rs2 => exact EncodeMatchesRow.join rd rs1 rs2
  | perm rd rs1 => exact EncodeMatchesRow.perm rd rs1
  | rotl rd rs1 amount width => exact EncodeMatchesRow.rotl rd rs1 amount width
  | desKey rs1 => exact EncodeMatchesRow.desKey rs1
  | desEnc rd rs1 => exact EncodeMatchesRow.desEnc rd rs1
  | desDec rd rs1 => exact EncodeMatchesRow.desDec rd rs1
  | desRk rd round => exact EncodeMatchesRow.desRk rd round
  | desF rd rs1 round => exact EncodeMatchesRow.desF rd rs1 round
  | desRnd rd rs1 round => exact EncodeMatchesRow.desRnd rd rs1 round
  | desSbox rd rs1 => exact EncodeMatchesRow.desSbox rd rs1
  | dealKey rs1 => exact EncodeMatchesRow.dealKey rs1
  | dealEnc rd rs1 => exact EncodeMatchesRow.dealEnc rd rs1
  | dealDec rd rs1 => exact EncodeMatchesRow.dealDec rd rs1
  | dealRk rd round => exact EncodeMatchesRow.dealRk rd round
  | dealF rd rs1 round => exact EncodeMatchesRow.dealF rd rs1 round
  | dealRnd rd rs1 round => exact EncodeMatchesRow.dealRnd rd rs1 round
  | clrErr => exact EncodeMatchesRow.clrErr

/-- Settles O1: an encoded command has its row's OP, matches the row, is within its limits, and its operand fields are
its operands. -/
theorem decodeOfEncode : Obligations.DecodeOfEncode := fun i h =>
  decode_ok.mpr ⟨opOf i, op_encode i, encode_matches_row i h, checkLimits_encode i h, (operands_encode i).symm⟩

/-- The limits that the decoder checks are those of a legal command (30_encoding R85 (c), (d)). -/
theorem wf_operands {op : Op} {w : Word} (h : checkLimits op w = .ok ()) : (op.operands w).wf = true := by
  cases op with
  | split => simpa [Op.operands, Instr.wf, checkLimits] using h
  | desRk | desF | desRnd => simpa [Op.operands, Instr.wf, desRoundOk, checkLimits] using h
  | dealRk | dealF | dealRnd => simpa [Op.operands, Instr.wf, dealRoundOk, checkLimits] using h
  | _ => rfl

/-- What a row's must-be-zero mask leaves of each field. -/
theorem not_mustBeZeroMask_eq_fields (op : Op) :
    ~~~mustBeZeroMask op.code = joinFields 0x3F (~~~op.mask.extractLsb' 23 3) (~~~op.mask.extractLsb' 20 3)
      (~~~op.mask.extractLsb' 17 3) 0 (~~~immField (mustBeZeroMask op.code)) := by
  cases op <;> decide

theorem ofFin_rdField (w : Word) : BitVec.ofFin (w := 3) (rdField w) = w.extractLsb' 23 3 := rfl

theorem ofFin_rs1Field (w : Word) : BitVec.ofFin (w := 3) (rs1Field w) = w.extractLsb' 20 3 := rfl

theorem ofFin_rs2Field (w : Word) : BitVec.ofFin (w := 3) (rs2Field w) = w.extractLsb' 17 3 := rfl

theorem amountField_append_widthField (w : Word) : amountField w ++ widthField w = immField w := by
  rw [amountField_eq, widthField_eq, hi_append_lo]

theorem and_sevenOnes (x : BitVec 3) : x &&& 7#3 = x := BitVec.and_allOnes

theorem and_sixteenOnes (x : BitVec 16) : x &&& 0xFFFF#16 = x := BitVec.and_allOnes

/-- The encoder writes a row's word back with the must-be-zero bits of the row's format cleared: an operand field is one
that the mask keeps whole, and the other fields are zero. -/
theorem encode_operands {op : Op} {w : Word} (hop : opField w = op.code) :
    encode (op.operands w) = w &&& ~~~mustBeZeroMask op.code := by
  conv_rhs => rw [not_mustBeZeroMask_eq_fields, word_eq_fields w, joinFields_and, code_and_ones, hop]
  cases op <;>
    simp [Op.operands, encode, fieldsWord_eq, ofFin_rdField, ofFin_rs1Field, ofFin_rs2Field,
      amountField_append_widthField, Op.mask, Op.code, mustBeZeroMask, immField, and_sevenOnes, and_sixteenOnes,
      -BitVec.extractLsb'_toNat]

/-- Settles O2: a decoded word has no must-be-zero bit set, so the word the encoder writes back is the word itself. -/
theorem encodeOfDecode : Obligations.EncodeOfDecode := by
  intro w i hi
  obtain ⟨op, hop, hmatch, hlimits, rfl⟩ := decode_ok.mp hi
  have hzero : w &&& mustBeZeroMask op.code = 0 := (matches_iff_mustBeZero hop hlimits).mp hmatch
  refine ⟨wf_operands hlimits, ?_⟩
  calc encode (op.operands w)
    _ = w &&& ~~~mustBeZeroMask op.code := encode_operands hop
    _ = (w &&& mustBeZeroMask op.code) ||| (w &&& ~~~mustBeZeroMask op.code) := by simp [hzero]
    _ = w := by rw [← BitVec.and_or_distrib_left, BitVec.or_not_self, BitVec.and_allOnes]

/-- Settles O4: the nine words of 30_encoding R88, each decoded by evaluation. -/
theorem sampleWordsDecode : Obligations.SampleWordsDecode := by
  refine ⟨?_, ?_, ?_, ?_, ?_, ?_, ?_, ?_, ?_⟩ <;> decide

end Sys2Proof.Laws
end

section
/-! PROOFS. The rules of every command: its frame (10_state R25, 60_exceptions R263), the errors it can end with
(60_exceptions R264), and that PERM alone reads PCFG and the table space. -/

namespace Sys2Proof.Machine

/-! ### The frame -/

/-- A command's next state is the aborted one or a completed one. -/
theorem next_cases {i : Instr} {s t : State} (ht : exec i s = .next t) :
    (∃ c, t = s.flagError c) ∨ Completed i s t := by
  obtain ⟨c, h⟩ | ⟨u, h, hc⟩ := exec_cases i s
  · exact .inl ⟨c, by injection ht.symm.trans h⟩
  · obtain rfl : u = t := by injection h.symm.trans ht
    exact .inr hc

/-- DES_KEY alone writes DKV and DKS (10_state R25). -/
theorem Completed.desState {i : Instr} {s t : State} (hc : Completed i s t) (hi : ∀ r, i ≠ .desKey r) :
    t.dkv = s.dkv ∧ t.dks = s.dks := by
  cases hc with
  | wrote | wroteTwo | dealKey | clrErr => exact ⟨rfl, rfl⟩
  | desKey rs1 => exact absurd rfl (hi rs1)

/-- DEAL_KEY alone writes EKV and EKS (10_state R25). -/
theorem Completed.dealState {i : Instr} {s t : State} (hc : Completed i s t) (hi : ∀ r, i ≠ .dealKey r) :
    t.ekv = s.ekv ∧ t.eks = s.eks := by
  cases hc with
  | wrote | wroteTwo | desKey | clrErr => exact ⟨rfl, rfl⟩
  | dealKey rs1 => exact absurd rfl (hi rs1)

/-- No command writes CMD, PCFG, the table memory, or a field of the model's own. -/
theorem exec_untouched {i : Instr} {s t : State} (ht : exec i s = .next t) :
    t.cmd = s.cmd ∧ t.pcfg = s.pcfg ∧ t.tbl = s.tbl ∧ t.dealKs = s.dealKs ∧ t.host = s.host ∧
      t.replies = s.replies := by
  obtain ⟨c, rfl⟩ | hc := next_cases ht
  · simp
  · cases hc <;> simp

/-- Settles O14: an aborted command wrote its flags alone, and a completed one what its family writes. -/
theorem commandFrame : Obligations.CommandFrame := by
  intro i s t ht
  obtain ⟨hcmd, hpcfg, htbl, hown⟩ := exec_untouched ht
  have hread (a : Nat) : t.tbl.read a = s.tbl.read a := by rw [htbl]
  obtain ⟨c, rfl⟩ | hc := next_cases ht
  · exact ⟨fun _ _ => rfl, fun _ => .inl rfl, fun _ => ⟨rfl, rfl⟩, fun _ => ⟨rfl, rfl⟩, fun _ => rfl,
      fun _ => ⟨rfl, fun h => absurd h c.toBits_ne_zero⟩, hcmd, hpcfg, hread, htbl, hown⟩
  · refine ⟨fun n => (hc.bufs n).1, fun n => (hc.bufs n).2, hc.desState, hc.dealState, absurd hc.err_eq_zero,
      fun hi => ?_, hcmd, hpcfg, hread, htbl, hown⟩
    obtain ⟨hany, hbus⟩ := hc.sticky hi
    exact ⟨hbus, fun _ => hany⟩

/-- Settles O13: a command that ends with ERR 0 was not aborted, and CLRERR clears both flags. -/
theorem successKeepsStickyFlags : Obligations.SuccessKeepsStickyFlags := by
  intro i s
  obtain ⟨t, ht⟩ := exec_next i s
  refine ⟨t, ht, fun herr hi => ?_, ?_⟩
  · obtain ⟨c, rfl⟩ | hc := next_cases ht
    · exact absurd herr c.toBits_ne_zero
    · exact hc.sticky hi
  · rintro rfl
    obtain rfl : { s with err := 0, anyErr := false, busErr := false } = t := by
      injection (clrErrCommand.2.1 s).symm.trans ht
    exact ⟨rfl, rfl, rfl⟩

/-! ### PCFG and the table space -/

/-- Another PCFG and another table memory (10_state R27, R35). -/
def State.withTables (pcfg : Word) (tbl : Memory) (s : State) : State := { s with pcfg := pcfg, tbl := tbl }

/-- Settles O16: every other body reads its operands from the other fields, so it commutes with the change. -/
theorem onlyPermReadsTables : Obligations.OnlyPermReadsTables := by
  intro i s pcfg tbl hi
  have hcomm : CommutesWith i (State.withTables pcfg tbl) := by
    cases i with
    | perm rd rs1 => exact absurd rfl (hi rd rs1)
    | clrErr =>
      exact commutesWith_of_finish (body := fun s => .ok s.clearSticky) (fun _ => rfl) (fun _ => rfl) (fun _ _ => rfl)
        fun _ => rfl
    | _ =>
      refine commutesWith_of_finish (fun _ => rfl) (fun s => ?_) (fun _ _ => rfl) fun _ => rfl
      simp only [map_bind, map_pure]
      rfl
  obtain ⟨t, ht⟩ := exec_next i s
  exact ⟨t, ht, hcomm s t ht⟩

/-! ### The errors of each command (60_exceptions R264) -/

/-- Whatever next state the command gives, its ERR is one of these. -/
def EndsIn (i : Instr) (s : State) (errs : List (BitVec 4)) : Prop := ∀ t, exec i s = .next t → t.err ∈ errs

theorem Fails.err_eq {i : Instr} {s t : State} {c : BitVec 4} (h : Fails i s c) (ht : exec i s = .next t) :
    t.err = c := by
  obtain rfl : s.aborted c = t := by injection h.symm.trans ht
  rfl

theorem endsIn_of_next {i : Instr} {s u : State} (h : exec i s = .next u) (herr : u.err = 0) : EndsIn i s [0] := by
  intro t ht
  obtain rfl : u = t := by injection h.symm.trans ht
  exact List.mem_singleton.mpr herr

theorem Writes.endsIn {i : Instr} {s : State} {rd : BufReg} {v : Bytes} (h : Writes i s rd v) : EndsIn i s [0] := by
  obtain ⟨t, ht, hw⟩ := h
  exact endsIn_of_next ht (congrArg State.err hw.rest)

/-- One check more is one error more. -/
theorem endsIn_of_check {i : Instr} {s : State} {p : Prop} [Decidable p] {c : BitVec 4} {Q : Prop}
    {errs : List (BitVec 4)} (h : if p then Fails i s c else Q) (hrest : Q → EndsIn i s errs) :
    EndsIn i s (c :: errs) := by
  intro t ht
  split at h
  · exact List.mem_cons.mpr (.inl (h.err_eq ht))
  · exact List.mem_cons_of_mem c (hrest h t ht)

theorem endsIn_wrote {i : Instr} {s : State} {p : Prop} [Decidable p] {c : BitVec 4} {rd : BufReg} {v : Bytes}
    (h : if p then Fails i s c else Writes i s rd v) : EndsIn i s [c, 0] := endsIn_of_check h Writes.endsIn

theorem exists_index_of_desRoundOk {round : BitVec 16} (h : desRoundOk round = true) :
    ∃ j : Fin 16, round.toNat = j.val + 1 := by
  simp only [desRoundOk, Bool.and_eq_true, decide_eq_true_eq] at h
  exact ⟨⟨round.toNat - 1, by omega⟩, by dsimp only; omega⟩

theorem exists_index_of_dealRoundOk {round : BitVec 16} (h : dealRoundOk round = true) :
    ∃ j : Fin 6, round.toNat = j.val + 1 := by
  simp only [dealRoundOk, Bool.and_eq_true, decide_eq_true_eq] at h
  exact ⟨⟨round.toNat - 1, by omega⟩, by dsimp only; omega⟩

/-- A legal command ends with an error of its row other than ILLEGAL_COMMAND, or with ERR 0. -/
theorem endsIn_of_wf (i : Instr) (s : State) (h : i.wf = true) :
    EndsIn i s ((mayRaise i).filter (· ≠ 3) ++ [0]) := by
  cases i with
  | xor rd rs1 rs2 => exact endsIn_wrote (xorCommand.2 s rd rs1 rs2)
  | split rd rs1 rs2 =>
    have hne : rd ≠ rs2 := by simpa [Instr.wf] using h
    refine endsIn_of_check ((if_neg hne).mp (splitCommand.2 s rd rs1 rs2)) ?_
    rintro ⟨t, ht, -, -, -, hrest⟩
    exact endsIn_of_next ht (congrArg State.err hrest)
  | join rd rs1 rs2 => exact endsIn_wrote (joinCommand.2 s rd rs1 rs2)
  | perm rd rs1 =>
    have hends : EndsIn (.perm rd rs1) s [1, 2, 2, 0] :=
      endsIn_of_check (permCommand.2 s rd rs1 _ _ _ _ _ rfl rfl rfl rfl rfl) fun h => endsIn_of_check h fun h =>
        endsIn_of_check h fun ⟨_, _, _, hw⟩ => hw.endsIn
    exact fun t ht => by simpa [mayRaise] using hends t ht
  | rotl rd rs1 amount width => exact endsIn_wrote (rotlCommand.2 s rd rs1 amount width)
  | desKey rs1 => exact endsIn_of_check (desKeyCommand.2 s rs1) fun h => endsIn_of_next h rfl
  | desEnc rd rs1 => exact endsIn_of_check (desEncCommand.2 s rd rs1) endsIn_wrote
  | desDec rd rs1 => exact endsIn_of_check (desDecCommand.2 s rd rs1) endsIn_wrote
  | desSbox rd rs1 => exact endsIn_wrote (desSboxCommand.2 s rd rs1)
  | dealKey rs1 => exact endsIn_of_check (dealKeyCommand.2 s rs1) fun h => endsIn_of_next h rfl
  | dealEnc rd rs1 => exact endsIn_of_check (dealEncCommand.2 s rd rs1) endsIn_wrote
  | dealDec rd rs1 => exact endsIn_of_check (dealDecCommand.2 s rd rs1) endsIn_wrote
  | desRk rd round =>
    obtain ⟨j, hj⟩ := exists_index_of_desRoundOk h
    exact endsIn_wrote (desRkCommand.2.2 s rd round j hj)
  | desF rd rs1 round =>
    obtain ⟨j, hj⟩ := exists_index_of_desRoundOk h
    exact endsIn_of_check (desFCommand.2.2 s rd rs1 round j hj) endsIn_wrote
  | desRnd rd rs1 round =>
    obtain ⟨j, hj⟩ := exists_index_of_desRoundOk h
    exact endsIn_of_check (desRndCommand.2.2 s rd rs1 round j hj) endsIn_wrote
  | dealRk rd round =>
    obtain ⟨j, hj⟩ := exists_index_of_dealRoundOk h
    exact endsIn_wrote (dealRkCommand.2.2 s rd round j hj)
  | dealF rd rs1 round =>
    obtain ⟨j, hj⟩ := exists_index_of_dealRoundOk h
    exact endsIn_of_check (dealFCommand.2.2 s rd rs1 round j hj) endsIn_wrote
  | dealRnd rd rs1 round =>
    obtain ⟨j, hj⟩ := exists_index_of_dealRoundOk h
    exact endsIn_of_check (dealRndCommand.2.2 s rd rs1 round j hj) endsIn_wrote
  | clrErr => exact endsIn_of_next (clrErrCommand.2.1 s) rfl

/-- A command that is not legal is aborted with ILLEGAL_COMMAND (30_encoding R85 (c), (d)). -/
theorem fails_of_not_wf (i : Instr) (s : State) (h : i.wf = false) : Fails i s 3 := by
  cases i with
  | split rd rs1 rs2 =>
    have heq : rd = rs2 := by simpa [Instr.wf] using h
    exact (if_pos heq).mp (splitCommand.2 s rd rs1 rs2)
  | desRk rd round => exact desRkCommand.2.1 s rd round (by simpa [Instr.wf, desRoundOk] using h)
  | desF rd rs1 round => exact desFCommand.2.1 s rd rs1 round (by simpa [Instr.wf, desRoundOk] using h)
  | desRnd rd rs1 round => exact desRndCommand.2.1 s rd rs1 round (by simpa [Instr.wf, desRoundOk] using h)
  | dealRk rd round => exact dealRkCommand.2.1 s rd round (by simpa [Instr.wf, dealRoundOk] using h)
  | dealF rd rs1 round => exact dealFCommand.2.1 s rd rs1 round (by simpa [Instr.wf, dealRoundOk] using h)
  | dealRnd rd rs1 round => exact dealRndCommand.2.1 s rd rs1 round (by simpa [Instr.wf, dealRoundOk] using h)
  | _ => cases h

/-- The rows that have illegal commands list ILLEGAL_COMMAND. -/
theorem three_mem_mayRaise {i : Instr} (h : i.wf = false) : 3 ∈ mayRaise i := by
  cases i with
  | split | desRk | desF | desRnd | dealRk | dealF | dealRnd => simp [mayRaise]
  | _ => cases h

/-- Settles O17: a command that is not legal is aborted as such, and a legal one by the checks of its body. -/
theorem errorsOfEachCommand : Obligations.ErrorsOfEachCommand := by
  intro i s t ht
  cases hwf : i.wf with
  | false =>
    have herr : t.err = 3 := (fails_of_not_wf i s hwf).err_eq ht
    exact ⟨.inr (herr ▸ three_mem_mayRaise hwf), nofun, fun _ => herr⟩
  | true =>
    obtain hmem | hzero := List.mem_append.mp (endsIn_of_wf i s hwf t ht)
    · obtain ⟨hrow, hne⟩ := List.mem_filter.mp hmem
      exact ⟨.inr hrow, fun _ => of_decide_eq_true hne, nofun⟩
    · have herr : t.err = 0 := List.mem_singleton.mp hzero
      exact ⟨.inl herr, fun _ h => absurd (herr.symm.trans h) (by decide), nofun⟩

end Sys2Proof.Machine
end

section
/-! PROOFS. The step: a CMD write (20_memory R57), a reset (70_reset R290), the table window (20_memory R62), and the
invariant of the machine. -/

namespace Sys2Proof.Machine

/-! ### A CMD write and a reset -/

theorem step_write_cmd {s : State} {w : Word} {rest : List HostAction} (hs : s.host = .write 0x000 w :: rest) :
    step s = runCommand w { s with cmd := w, host := rest, replies := s.replies ++ [.ok] } := by
  simp only [step_cons hs, hostAction, memWrite, hostReg_cmd]
  rfl

/-- A command word gives a next state, and leaves CMD and the model's own fields as they were. -/
theorem runCommand_next (w : Word) (s : State) :
    ∃ t, runCommand w s = .next t ∧ t.cmd = s.cmd ∧ t.host = s.host ∧ t.replies = s.replies := by
  obtain ⟨i, -, hrun⟩ | ⟨-, hrun⟩ := runCommand_cases w s
  · obtain ⟨t, ht⟩ := exec_next i s
    obtain ⟨hcmd, -, -, -, hhost, hreplies⟩ := exec_untouched ht
    exact ⟨t, hrun.trans ht, hcmd, hhost, hreplies⟩
  · exact ⟨_, hrun, rfl, rfl, rfl⟩

/-- Settles O5: the step runs the word that is written, and the word decodes to the command. -/
theorem stepRunsDecodedCommand : Obligations.StepRunsDecodedCommand := by
  intro s w i rest hs hi
  rw [step_write_cmd hs, runCommand, hi]

/-- Settles O6: the address is CMD's, a write runs the word, and no command changes CMD or the answers. -/
theorem cmdRegister : Obligations.CmdRegister := by
  refine ⟨readsAs_readReg hostReg_cmd, fun s w rest hs => ⟨step_write_cmd hs, ?_⟩⟩
  obtain ⟨t, ht, hcmd, -, hreplies⟩ :=
    runCommand_next w { s with cmd := w, host := rest, replies := s.replies ++ [.ok] }
  exact ⟨t, (step_write_cmd hs).trans ht, hcmd, hreplies⟩

/-- Settles O9: a reset action is `State.resetCore`. -/
theorem resetAction : Obligations.ResetAction := fun _ _ hs => step_cons hs

/-- An action gives a next state and takes no further action of the host (60_exceptions R266, 70_reset R292). -/
theorem hostAction_next (a : HostAction) (s : State) : ∃ t, hostAction a s = .next t ∧ t.host = s.host := by
  cases a with
  | read addr =>
    obtain ⟨-, h⟩ | ⟨r, -, h⟩ := memRead_cases addr s
    · exact ⟨_, congrArg Host.Outcome.next h, rfl⟩
    · exact ⟨_, congrArg Host.Outcome.next h, rfl⟩
  | write addr v =>
    obtain h | ⟨-, h⟩ | ⟨r, -, -, -, h⟩ := memWrite_cases addr v s
    · exact ⟨_, h, rfl⟩
    · obtain ⟨t, ht, -, hhost, -⟩ := runCommand_next v ((s.storeReg .cmd v).reply .ok)
      exact ⟨t, h.trans ht, hhost⟩
    · exact ⟨_, h, (storeReg_own s r v).1⟩
  | reset => exact ⟨_, rfl, rfl⟩

theorem step_idle {s : State} (hs : s.host = []) : step s = .next s := by simp only [step, hs]

/-- Settles O7: the idle step, or one action. -/
theorem everyStepCompletes : Obligations.EveryStepCompletes := by
  refine ⟨fun s => ?_, fun _ => step_idle⟩
  cases hs : s.host with
  | nil => exact ⟨s, step_idle hs, hs⟩
  | cons a rest =>
    obtain ⟨t, ht, hhost⟩ := hostAction_next a { s with host := rest }
    exact ⟨t, (step_cons hs).trans ht, hhost⟩

/-! ### The table window (20_memory R62) -/

/-- Settles O21: the four entries of a word are read big-endian, the ROM's words are not writable, and a written word
keeps the canonical form. -/
theorem tableWindow : Obligations.TableWindow := by
  intro j
  refine ⟨?_, fun hj => ?_, fun hj s v rest hwf hs => ?_⟩
  · simpa only [State.readReg, wordOfBytes_eq] using readsAs_readReg (hostReg_tbl j)
  · exact writeRefused_of_not_writable (hostReg_tbl j) (decide_eq_false (Nat.not_lt.mpr hj))
  · refine ⟨_, storesAs_storeReg (hostReg_tbl j) nofun (decide_eq_true hj) s v rest hs, rfl,
      Memory.writeWord_wf hwf _ v, fun a => ?_⟩
    refine (Memory.read_writeWord hwf (by omega) v a).trans ?_
    split
    next h =>
      obtain ⟨k, rfl⟩ := Nat.exists_eq_add_of_le h.1
      obtain rfl | rfl | rfl | rfl : k = 0 ∨ k = 1 ∨ k = 2 ∨ k = 3 := by omega
      all_goals simp [wordByte]
    next h => rw [if_neg (by omega), if_neg (by omega), if_neg (by omega), if_neg (by omega)]

/-! ### The invariant -/

/-- Settles O10: nothing is listed in the table memory, no flag is set, and no key is valid. -/
theorem invariantAtReset : Obligations.InvariantAtReset where
  tblWf := reset_tbl_wf
  errLegal := by decide
  errSticky := by decide
  pcfgReserved := by decide
  dksDerived := nofun
  dksZero _ := rfl
  eksDerived := nofun
  eksZero _ := rfl

theorem State.Inv.resetCore (s : State) : s.resetCore.Inv := { invariantAtReset with eksDerived := nofun }

theorem State.Inv.withHost {s : State} (h : s.Inv) (rest : List HostAction) : { s with host := rest }.Inv := { h with }

theorem State.Inv.reply {s : State} (h : s.Inv) (r : Reply) : (s.reply r).Inv := { h with }

theorem State.Inv.busError {s : State} (h : s.Inv) : s.busError.Inv := { h with }

theorem State.Inv.flagError {s : State} (h : s.Inv) (c : ErrorCode) : (s.flagError c).Inv :=
  { h with errLegal := c.toBits_le, errSticky := fun _ => rfl }

theorem pcfgKept_reserved (v : Word) : pcfgKept v &&& 0x7C000000 = 0 := by
  rw [pcfgKept, BitVec.and_assoc]
  exact BitVec.and_zero

theorem State.Inv.storeReg {s : State} (h : s.Inv) (r : HostReg) (v : Word) : (s.storeReg r v).Inv := by
  cases r with
  | cmd | status | len | data => exact { h with }
  | pcfg => exact { h with pcfgReserved := pcfgKept_reserved v }
  | tbl j => exact { h with tblWf := Memory.writeWord_wf h.tblWf _ v }

theorem Completed.inv {i : Instr} {s t : State} (hc : Completed i s t) (h : s.Inv) : t.Inv := by
  cases hc with
  | wrote | wroteTwo => exact { h with errLegal := Nat.zero_le _, errSticky := absurd rfl }
  | clrErr => exact { h with errLegal := Nat.zero_le _, errSticky := absurd rfl }
  | desKey =>
    exact { h with
      errLegal := Nat.zero_le _, errSticky := absurd rfl, dksDerived := fun _ => ⟨_, rfl⟩, dksZero := nofun }
  | dealKey =>
    exact { h with
      errLegal := Nat.zero_le _, errSticky := absurd rfl, eksDerived := fun _ => ⟨_, rfl⟩, eksZero := nofun }

theorem State.Inv.exec {s t : State} (h : s.Inv) {i : Instr} (ht : exec i s = .next t) : t.Inv := by
  obtain ⟨c, rfl⟩ | hc := next_cases ht
  · exact h.flagError c
  · exact hc.inv h

theorem State.Inv.runCommand {s t : State} (h : s.Inv) {w : Word} (ht : runCommand w s = .next t) : t.Inv := by
  obtain ⟨i, -, hrun⟩ | ⟨-, hrun⟩ := runCommand_cases w s
  · exact h.exec (hrun.symm.trans ht)
  · obtain rfl : s.flagError .illegalCommand = t := by injection hrun.symm.trans ht
    exact h.flagError .illegalCommand

theorem State.Inv.memRead {s : State} (h : s.Inv) (addr : Addr) : (memRead addr s).Inv := by
  obtain ⟨-, hread⟩ | ⟨r, -, hread⟩ := memRead_cases addr s
  · exact hread ▸ h.busError
  · exact hread ▸ h.reply _

theorem State.Inv.memWrite {s t : State} (h : s.Inv) {addr : Addr} {v : Word} (ht : memWrite addr v s = .next t) :
    t.Inv := by
  obtain hwrite | ⟨-, hwrite⟩ | ⟨r, -, -, -, hwrite⟩ := memWrite_cases addr v s
  · obtain rfl : s.busError = t := by injection hwrite.symm.trans ht
    exact h.busError
  · exact ((h.storeReg .cmd v).reply .ok).runCommand (hwrite.symm.trans ht)
  · obtain rfl : (s.storeReg r v).reply .ok = t := by injection hwrite.symm.trans ht
    exact (h.storeReg r v).reply .ok

theorem State.Inv.hostAction {s t : State} (h : s.Inv) {a : HostAction} (ht : hostAction a s = .next t) : t.Inv := by
  cases a with
  | read addr =>
    obtain rfl : Machine.memRead addr s = t := by injection ht
    exact h.memRead addr
  | write addr v => exact h.memWrite ht
  | reset =>
    obtain rfl : s.resetCore = t := by injection ht
    exact State.Inv.resetCore s

/-- Settles O11: an idle step changes nothing, and each action of the host keeps the invariant. -/
theorem stepKeepsInvariant : Obligations.StepKeepsInvariant := by
  intro s t h ht
  cases hs : s.host with
  | nil =>
    obtain rfl : s = t := by injection (step_idle hs).symm.trans ht
    exact h
  | cons a rest => exact (h.withHost rest).hostAction ((step_cons hs).symm.trans ht)

end Sys2Proof.Machine
end

section
/-! PROOFS. The laws of the kernel's functions (40_kernel R114), and PERM with a table of the ROM (R109). -/

namespace Sys2Proof.Machine

/-! ### Exclusive-or and halves (40_kernel R114, laws 1 and 2) -/

theorem xorBuf_xorBuf_cancel {a b : Bytes} (h : a.length = b.length) : xorBuf (xorBuf a b) b = a := by
  apply List.ext_getElem
  · simp [length_xorBuf, h]
  · intro i _ _
    simp [xorBuf]

theorem xorBuf_self (a : Bytes) : xorBuf a a = List.replicate a.length 0 := by
  apply List.ext_getElem
  · simp [length_xorBuf]
  · intro i _ _
    simp [xorBuf]

theorem splitHalves_append {l r : Bytes} (h : l.length = r.length) : splitHalves (l ++ r) = (l, r) := by
  rw [splitHalves_even (by rw [List.length_append]; omega), List.length_append, ← h, ← two_mul,
    Nat.mul_div_cancel_left _ two_pos, List.take_left, List.drop_left]

/-! ### Rotations (40_kernel R114, law 3) -/

theorem rotlLow_mod (src : Bytes) (s w : Nat) : rotlLow src (s % w) w = rotlLow src s w := by
  simp only [rotlLow, Nat.mod_mod]

/-- The position that a rotation brings to `j` is the one that is `s` below it. -/
theorem rotatedFrom_add (j s : Nat) {w : Nat} (hw : 1 ≤ w) : (j + (w - s % w)) % w + s ≡ j [MOD w] := by
  have hs : w - s % w + s = w * (s / w + 1) := by
    have := Nat.mod_lt s hw
    have := Nat.div_add_mod s w
    rw [Nat.mul_add, Nat.mul_one]
    omega
  calc (j + (w - s % w)) % w + s
    _ ≡ j + (w - s % w) + s [MOD w] := (Nat.mod_modEq _ w).add_right s
    _ = j + w * (s / w + 1) := by rw [Nat.add_assoc, hs]
    _ ≡ j [MOD w] := Nat.add_mul_mod_self_left j w _

theorem rotatedFrom_rotatedFrom (j s1 s2 : Nat) {w : Nat} (hw : 1 ≤ w) :
    ((j + (w - s2 % w)) % w + (w - s1 % w)) % w = (j + (w - (s1 + s2) % w)) % w := by
  have htwice : ((j + (w - s2 % w)) % w + (w - s1 % w)) % w + (s1 + s2) ≡ j [MOD w] := by
    rw [← Nat.add_assoc]
    exact ((rotatedFrom_add _ s1 hw).add_right s2).trans (rotatedFrom_add j s2 hw)
  have honce := rotatedFrom_add j (s1 + s2) hw
  exact ((htwice.trans honce.symm).add_right_cancel' _).eq_of_lt_of_lt (Nat.mod_lt _ hw) (Nat.mod_lt _ hw)

theorem bytes_eq_of_val_eq {a b : Bytes} (hl : a.length = b.length) (hv : val a = val b) : a = b := by
  rw [← bytesBE_val a, ← bytesBE_val b, hl, hv]

theorem rotlLow_rotlLow (src : Bytes) (s1 s2 : Nat) {w : Nat} (hw1 : 1 ≤ w) (hw : w ≤ 8 * src.length) :
    rotlLow (rotlLow src s1 w) s2 w = rotlLow src (s1 + s2) w := by
  refine bytes_eq_of_val_eq (by simp only [length_rotlLow]) (Nat.eq_of_testBit_eq fun j => ?_)
  have hm : (j + (w - s2 % w)) % w < w := Nat.mod_lt _ hw1
  have hbit := testBit_val_rotlLow src s1 hw1 hw
  rw [testBit_val_rotlLow _ s2 hw1 (by rwa [length_rotlLow]), testBit_val_rotlLow src (s1 + s2) hw1 hw, hbit, hbit,
    if_pos hm, rotatedFrom_rotatedFrom j s1 s2 hw1]
  split <;> rfl

/-- Settles O27: the three laws; that JOIN undoes SPLIT on an even length is a clause of `splitHalvesOfBytes`. -/
theorem kernelLaws : Obligations.KernelLaws := by
  refine ⟨fun _ _ h => xorBuf_xorBuf_cancel h, xorBuf_self, fun b h => ((splitHalvesOfBytes b).1 h).2.2,
    fun l r hl hr => ?_, fun b s1 s2 w hw1 hw => ⟨rotlLow_rotlLow b s1 s2 hw1 hw, (rotlLow_mod b s1 w).symm⟩⟩
  rw [splitHalves_append (hl.trans hr.symm)]

/-! ### A permutation and its inverse table (40_kernel R114, law 4) -/

/-- `permute` with most significant bit first, every entry in the source. -/
theorem permute_msbFirst {src : Bytes} {table : List Nat} {off : Int}
    (h : ∀ i < table.length, 0 ≤ (table.getD i 0 : Int) + off ∧ (table.getD i 0 : Int) + off < 8 * (src.length : Int)) :
    ∃ r, permute src table off .msbFirst = some r ∧ r.length = (table.length + 7) / 8 ∧
      ∀ j < table.length, bitM r j = bitM src ((table.getD j 0 : Int) + off).toNat := by
  obtain ⟨r, hr, hlen, hbits⟩ := (permuteSelectsBits src table off .msbFirst).2 fun x hx => by
    obtain ⟨i, hi, rfl⟩ := List.getElem_of_mem hx
    simpa only [List.getD_eq_getElem _ _ hi] using h i hi
  exact ⟨r, hr, hlen, fun j hj => (hbits j (by omega)).trans (if_pos hj)⟩

theorem permute_inverse {b : Bytes} {t t' : List Nat} {off : Int} (ht : t.length = 8 * b.length)
    (ht' : t'.length = 8 * b.length)
    (h : ∀ i < 8 * b.length, 0 ≤ (t.getD i 0 : Int) + off ∧ (t.getD i 0 : Int) + off < 8 * (b.length : Int))
    (h' : ∀ i < 8 * b.length, 0 ≤ (t'.getD i 0 : Int) + off ∧ (t'.getD i 0 : Int) + off < 8 * (b.length : Int) ∧
      (t.getD ((t'.getD i 0 : Int) + off).toNat 0 : Int) + off = i) :
    ∃ r, permute b t off .msbFirst = some r ∧ permute r t' off .msbFirst = some b := by
  obtain ⟨r, hr, hlen, hbits⟩ := permute_msbFirst (ht ▸ h)
  have hlen : r.length = b.length := by omega
  obtain ⟨r', hr', hlen', hbits'⟩ := permute_msbFirst (src := r) (table := t') (off := off) fun i hi => by
    obtain ⟨h0, h1, -⟩ := h' i (by omega)
    exact ⟨h0, by omega⟩
  have hback : r' = b := by
    apply bytes_ext (by omega)
    intro j hj
    obtain ⟨h0, h1, hj'⟩ := h' j (by omega)
    rw [hbits' j (by omega), hbits _ (by omega), hj', Int.toNat_natCast]
  exact ⟨r, hr, hback ▸ hr'⟩

/-- FP and IP invert each other, as 0-based positions (42_des R161, R162). -/
theorem fpTable_ipTable_inverse : ∀ i < 64,
    ((1 ≤ ipTable.getD i 0 ∧ ipTable.getD i 0 ≤ 64) ∧ fpTable.getD (ipTable.getD i 0 - 1) 0 = i + 1) ∧
    ((1 ≤ fpTable.getD i 0 ∧ fpTable.getD i 0 ≤ 64) ∧ ipTable.getD (fpTable.getD i 0 - 1) 0 = i + 1) := by
  decide +kernel

/-- Settles O28: the inverse-table law without an offset, and with the offset of 1-based positions for IP and FP. -/
theorem permuteInverseTable : Obligations.PermuteInverseTable := by
  refine ⟨fun b t t' hb ht ht' h h' => ?_, fun b hb => ?_⟩
  · refine permute_inverse (by omega) (by omega) (fun i hi => ?_) fun i hi => ?_
    · have := h i (by omega)
      omega
    · obtain ⟨hlt, hback⟩ := h' i (by omega)
      exact ⟨by omega, by omega, by simpa using hback⟩
  · refine permute_inverse (by simp [hb]) (by simp [hb]) (fun i hi => ?_) fun i hi => ?_
    · obtain ⟨⟨⟨h1, h2⟩, -⟩, -⟩ := fpTable_ipTable_inverse i (by omega)
      omega
    · obtain ⟨-, ⟨h1, h2⟩, hback⟩ := fpTable_ipTable_inverse i (by omega)
      have hindex : ((fpTable.getD i 0 : Int) + -1).toNat = fpTable.getD i 0 - 1 := by omega
      rw [hindex, hback]
      omega

/-! ### PERM with a table of the ROM (40_kernel R109) -/

/-- Bit selection by 1-based positions is `permute` with offset -1 (00_scope R11, 40_kernel R106). -/
theorem permute_eq_selectBits {src : Bytes} {table : List Nat} {w k : Nat} (hw : 8 * src.length = w)
    (hk : table.length = k) (hk8 : 8 * (k / 8) = k) (h : ∀ i < k, 1 ≤ table.getD i 0 ∧ table.getD i 0 ≤ w) :
    permute src table (-1) .msbFirst = some (bytesOf (selectBits k table (bitsOf w src))) := by
  obtain ⟨r, hr, hlen, hbits⟩ := permute_msbFirst (src := src) (table := table) (off := -1) fun i hi => by
    have := h i (by omega)
    omega
  rw [hr]
  congr 1
  apply bytes_ext (by rw [length_bytesOf]; omega)
  intro j hj
  have hentry := h j (by omega)
  have hindex : ((table.getD j 0 : Int) + -1).toNat = table.getD j 0 - 1 := by omega
  rw [hbits j (by omega), bitM_bytesOf _ hk8 (by omega), getMsbD_selectBits _ hk (by omega),
    getMsbD_bitsOf src hw (by omega), hindex]

theorem permTable_eq {s : State} {table : List Nat} {base : Nat} (hlen : s.permLength = table.length)
    (hbase : s.permBase = base) (h : ∀ i < table.length, (s.tbl.read (base + i)).toNat = table.getD i 0) :
    s.permTable = table := by
  apply List.ext_getElem (by rw [s.length_permTable, hlen])
  intro i _ hi
  simpa only [State.permTable, List.getElem_map, List.getElem_range, hbase, List.getD_eq_getElem _ _ hi] using h i hi

/-- PCFG selects this table, 1-based positions counted from the most significant bit: TBASE, TLEN, OFFSET -1, DIR 0
(10_state R35). -/
structure SelectsTable (s : State) (base : Nat) (table : List Nat) : Prop where
  base : s.permBase = base
  length : s.permLength = table.length
  offset : s.permOffset = -1
  direction : s.permDirection = .msbFirst

theorem selectsTable_of_pcfg {s : State} {v : Word} (h : s.pcfg = v) {base : Nat} {table : List Nat}
    (hbase : (v.extractLsb' 16 10).toNat = base) (hlength : (v.extractLsb' 8 8).toNat = table.length)
    (hoff : (v.extractLsb' 0 8).toInt = -1) (hdir : v.getLsbD 31 = false) : SelectsTable s base table := by
  subst h
  exact ⟨hbase, hlength, hoff, if_neg (by rw [hdir]; exact Bool.false_ne_true)⟩

/-- A selected table that gives `k` bits of a source of `w` bits, both whole bytes within the limits of PERM (40_kernel
R107, R108). -/
theorem writes_perm_selectBits {s : State} {rd rs1 : BufReg} {base k w n : Nat} {table : List Nat}
    (hsel : SelectsTable s base table) (htable : ∀ i < k, (s.tbl.read (base + i)).toNat = table.getD i 0)
    (hlen : s.bufs[rs1].len = BitVec.ofNat 5 n)
    (hsizes : n ≤ 16 ∧ 8 * n = w ∧ table.length = k ∧ 8 * (k / 8) = k ∧ k ≤ 128 ∧ base + k ≤ 1024)
    (hentries : ∀ i < k, 1 ≤ table.getD i 0 ∧ table.getD i 0 ≤ w) :
    Writes (.perm rd rs1) s rd (bytesOf (selectBits k table (bitsOf w s.bufs[rs1].bytes))) := by
  obtain ⟨hbase, hlength, hoff, hdir⟩ := hsel
  obtain ⟨hn, hw, hk, hk8, hk128, hend⟩ := hsizes
  have hlen : s.bufs[rs1].len.toNat = n := by rw [hlen, BitVec.toNat_ofNat]; omega
  have hsrc : s.bufs[rs1].bytes.length = n := by rw [Buf.length_bytes_of_le (hlen ▸ hn), hlen]
  refine writes_of_finish (by rw [length_bytesOf]; omega) ?_
  rw [exec_perm, if_neg (by omega), if_neg (by omega), permTable_eq hlength hbase (hk ▸ htable), hoff, hdir,
    permute_eq_selectBits (by rw [hsrc, hw]) hk hk8 hentries]

/-- Settles O34: each PCFG selects one table of the ROM (`tableRomContents`), whose entries are within the source. -/
theorem romPermComputesDesTables : Obligations.RomPermComputesDesTables := by
  intro s rd rs1
  obtain ⟨hip, hfp, he, hp, hpc1, hpc2, -⟩ := tableRomContents s.tbl
  refine ⟨fun h hlen => ?_, fun h hlen => ?_, fun h hlen => ?_, fun h hlen => ?_, fun h hlen => ?_, fun h hlen => ?_⟩
  · exact writes_perm_selectBits (selectsTable_of_pcfg h rfl rfl rfl rfl) hip (n := 8) hlen (by decide) (by decide)
  · exact writes_perm_selectBits (selectsTable_of_pcfg h rfl rfl rfl rfl) hfp (n := 8) hlen (by decide) (by decide)
  · exact writes_perm_selectBits (selectsTable_of_pcfg h rfl rfl rfl rfl) he (n := 4) hlen (by decide) (by decide)
  · exact writes_perm_selectBits (selectsTable_of_pcfg h rfl rfl rfl rfl) hp (n := 4) hlen (by decide) (by decide)
  · exact writes_perm_selectBits (selectsTable_of_pcfg h rfl rfl rfl rfl) hpc1 (n := 8) hlen (by decide) (by decide)
  · exact writes_perm_selectBits (selectsTable_of_pcfg h rfl rfl rfl rfl) hpc2 (n := 7) hlen (by decide) (by decide)

end Sys2Proof.Machine
end

section
/-! PROOFS. The Feistel network as its steps, and its inverse (41_feistel R143, R144). -/

namespace Sys2Proof.Machine

section
variable {h : Nat} {κ : Type} (f : BitVec h → κ → BitVec h)

/-- A network is its rounds, then one swap (41_feistel R141). -/
theorem feistelEnc_eq (ks : List κ) (x : BitVec (h + h)) : feistelEnc f ks x =
    (feistelRounds f ks (leftHalf x) (rightHalf x)).2 ++ (feistelRounds f ks (leftHalf x) (rightHalf x)).1 := rfl

/-- The rounds with the keys in reverse order, from the swapped halves, lead back to the swapped halves. -/
theorem feistelRounds_reverse (ks : List κ) (l r : BitVec h) :
    feistelRounds f ks.reverse (feistelRounds f ks l r).2 (feistelRounds f ks l r).1 = (r, l) := by
  induction ks generalizing l r with
  | nil => rfl
  | cons k ks ih =>
    rw [feistelRounds_cons, List.reverse_cons, feistelRounds_append, ih, feistelRounds_cons, feistelRounds_nil,
      BitVec.xor_assoc, BitVec.xor_self, BitVec.xor_zero]

theorem feistelDec_feistelEnc (ks : List κ) (x : BitVec (h + h)) : feistelDec f ks (feistelEnc f ks x) = x := by
  rw [feistelDec, feistelEnc_eq f ks.reverse, feistelEnc_eq f ks, leftHalf_append, rightHalf_append,
    feistelRounds_reverse, halves_append]

theorem feistelStep_append (k : κ) (l r : BitVec h) : feistelStep f k (l ++ r) = r ++ (l ^^^ f r k) := by
  rw [feistelStep, leftHalf_append, rightHalf_append]

theorem swapHalves_append (l r : BitVec h) : swapHalves (l ++ r) = r ++ l := by
  rw [swapHalves, leftHalf_append, rightHalf_append]

theorem foldl_feistelStep_append (ks : List κ) (l r : BitVec h) :
    ks.foldl (fun y k => feistelStep f k y) (l ++ r) = (feistelRounds f ks l r).1 ++ (feistelRounds f ks l r).2 := by
  induction ks generalizing l r with
  | nil => rfl
  | cons k ks ih => rw [List.foldl_cons, feistelStep_append, ih, feistelRounds_cons]

end

/-- Settles O36: the rounds in reverse undo the rounds, one key at a time. -/
theorem feistelInverse : Obligations.FeistelInverse := fun _ _ => feistelDec_feistelEnc

/-- Settles O37: the steps are the rounds on the joined halves. -/
theorem feistelByRounds : Obligations.FeistelByRounds := by
  refine fun h κ f => ⟨feistelStep_append f, swapHalves_append, fun ks x => ?_⟩
  rw [← halves_append x, foldl_feistelStep_append, swapHalves_append, feistelEnc_eq, leftHalf_append, rightHalf_append]

end Sys2Proof.Machine
end

section
/-! PROOFS. DES: FP and IP invert each other (42_des R162), the key schedule (R177), parity bits (R178), and decryption
after encryption, of DES and of DEAL (42_des R186, 43_deal R229). -/

namespace Sys2Proof.Machine

/-! ### FP and IP (42_des R161, R162) -/

/-- Selection by a table and then by its inverse. -/
theorem selectBits_selectBits_inverse {w : Nat} {t t' : List Nat} (ht : t.length = w) (ht' : t'.length = w)
    (h : ∀ i < w, (1 ≤ t'.getD i 0 ∧ t'.getD i 0 ≤ w) ∧ t.getD (t'.getD i 0 - 1) 0 = i + 1) (x : BitVec w) :
    selectBits w t' (selectBits w t x) = x := by
  apply BitVec.eq_of_getMsbD_eq
  intro i hi
  obtain ⟨hentry, hback⟩ := h i hi
  rw [getMsbD_selectBits _ ht' hi, getMsbD_selectBits x ht (by omega), hback, Nat.add_sub_cancel]

theorem desFP_desIP (x : BitVec 64) : desFP (desIP x) = x :=
  selectBits_selectBits_inverse ipTable_length fpTable_length (fun i hi => (fpTable_ipTable_inverse i hi).2) x

theorem desIP_desFP (x : BitVec 64) : desIP (desFP x) = x :=
  selectBits_selectBits_inverse fpTable_length ipTable_length (fun i hi => (fpTable_ipTable_inverse i hi).1) x

/-- Settles O38: the tables are inverse to each other at every position, and so are the selections by them. -/
theorem fpUndoesIp : Obligations.FpUndoesIp := by
  refine ⟨fun i h1 h64 => ?_, desFP_desIP⟩
  obtain ⟨⟨-, hback⟩, -⟩ := fpTable_ipTable_inverse (i - 1) (by omega)
  rw [hback]
  omega

/-! ### The key schedule (42_des R177) -/

theorem rotateLeft_rotateLeft {w : Nat} (x : BitVec w) (m n : Nat) :
    (x.rotateLeft m).rotateLeft n = x.rotateLeft (m + n) := by
  apply BitVec.eq_of_getMsbD_eq
  intro i hi
  have hlt : (n + i) % w < w := Nat.mod_lt _ (by omega)
  simp only [BitVec.getMsbD_rotateLeft, hi, hlt, decide_true, Bool.true_and, Nat.add_mod_mod, Nat.add_assoc]

/-- The rotations of the rounds add up. -/
theorem getD_desScheduleFrom {ns : List Nat} {i : Nat} (hi : i < ns.length) (c d : BitVec 28) :
    (desScheduleFrom ns c d).getD i 0 =
      desPC2 (c.rotateLeft (ns.take (i + 1)).sum ++ d.rotateLeft (ns.take (i + 1)).sum) := by
  induction ns generalizing i c d with
  | nil => exact absurd hi (Nat.not_lt_zero i)
  | cons n ns ih =>
    rw [desScheduleFrom, List.take_succ_cons, List.sum_cons]
    cases i with
    | zero => rfl
    | succ i => rw [List.getD_cons_succ, ih (Nat.lt_of_succ_lt_succ hi), rotateLeft_rotateLeft, rotateLeft_rotateLeft]

/-- Settles O40: the amounts as R176 lists them, and round key `i` after the first `i` of them. -/
theorem desKeySchedule : Obligations.DesKeySchedule := by
  refine ⟨rfl, rfl, fun key i => ?_⟩
  have hkey : (desKS key)[i] = (desSchedule key).getD i.val 0 := by simp [desKS]
  rw [hkey, desSchedule, getD_desScheduleFrom i.isLt]

/-! ### Parity bits (42_des R178) -/

/-- PC-1 selects no parity bit (42_des R165). -/
theorem pc1Table_no_parity : ∀ i < 56, 1 ≤ pc1Table.getD i 0 ∧ pc1Table.getD i 0 ≤ 64 ∧ pc1Table.getD i 0 % 8 ≠ 0 := by
  decide

theorem desPC1_eq_of_parity {k k' : BitVec 64}
    (h : ∀ p, 1 ≤ p → p ≤ 64 → p % 8 ≠ 0 → k.getMsbD (p - 1) = k'.getMsbD (p - 1)) : desPC1 k = desPC1 k' := by
  apply BitVec.eq_of_getMsbD_eq
  intro i hi
  obtain ⟨h1, h64, hparity⟩ := pc1Table_no_parity i hi
  rw [desPC1, desPC1, getMsbD_selectBits k pc1Table_length hi, getMsbD_selectBits k' pc1Table_length hi,
    h _ h1 h64 hparity]

/-- Settles O41: the schedule sees the key through PC-1, and DES_KEY checks the length alone. -/
theorem parityBitsIgnored : Obligations.ParityBitsIgnored := by
  refine ⟨fun k k' h => ?_, fun s rs1 hlen => ?_⟩
  · have hschedule : desSchedule k = desSchedule k' := by rw [desSchedule, desSchedule, desPC1_eq_of_parity h]
    exact ⟨by rw [desKS, desKS, hschedule], fun b => by rw [desEncrypt, desEncrypt, hschedule]⟩
  · exact ⟨_, (if_neg (not_not.mpr hlen)).mp (desKeyCommand.2 s rs1), rfl⟩

/-! ### Decryption after encryption -/

theorem desKs_reverse_desKs (ks : List (BitVec 48)) (b : BitVec 64) : desKs ks.reverse (desKs ks b) = b := by
  rw [desKs, desKs, desIP_desFP]
  exact (congrArg desFP (feistelDec_feistelEnc (h := 32) desF ks (desIP b))).trans (desFP_desIP b)

theorem dealBlock_reverse_dealBlock (eks : List (BitVec 64)) (b : BitVec 128) :
    dealBlock eks.reverse (dealBlock eks b) = b := feistelDec_feistelEnc (h := 64) dealF eks b

/-- Two commands in a row that each write one register. -/
theorem exec_twice {i j : Instr} {s : State} {rd rd' : BufReg} {v w : Bytes} (hi : Writes i s rd v)
    (hj : ∀ t, WroteBuf s t rd v → Writes j t rd' w) :
    ∃ t u, exec i s = .next t ∧ exec j t = .next u ∧ HoldsBytes u.bufs[rd'] w ∧ t.err = 0 ∧ u.err = 0 := by
  obtain ⟨t, ht, hwrote⟩ := hi
  obtain ⟨u, hu, hwrote'⟩ := hj t hwrote
  exact ⟨t, u, ht, hu, hwrote'.holds, congrArg State.err hwrote.rest, congrArg State.err hwrote'.rest⟩

/-- A register that a command wrote a whole block to reads as the block. -/
theorem WroteBuf.bitsOf_bytes {s t : State} {rd : BufReg} {w : Nat} {x : BitVec w} (h : WroteBuf s t rd (bytesOf x))
    (hw : 8 * (w / 8) = w) (hle : w ≤ 128) : bitsOf w t.bufs[rd].bytes = x := by
  rw [h.holds.bytes_eq (by rw [length_bytesOf]; omega), bitsOf_bytesOf x hw]

theorem WroteBuf.len_eq {s t : State} {rd : BufReg} {v : Bytes} (h : WroteBuf s t rd v) :
    t.bufs[rd].len = BitVec.ofNat 5 v.length := by
  rw [← h.holds.len, BitVec.ofNat_toNat, BitVec.setWidth_eq]

/-- A register write leaves both key states. -/
theorem WroteBuf.keys {s t : State} {rd : BufReg} {v : Bytes} (h : WroteBuf s t rd v) :
    t.dkv = s.dkv ∧ t.dks = s.dks ∧ t.ekv = s.ekv ∧ t.eks = s.eks := by
  rw [h.rest]
  exact ⟨rfl, rfl, rfl, rfl⟩

theorem desEnc_writes {s : State} {rd rs1 : BufReg} (hkey : s.dkv = true) (hlen : s.bufs[rs1].len = 8) :
    Writes (.desEnc rd rs1) s rd (bytesOf (desKs s.dks.toList (bitsOf 64 s.bufs[rs1].bytes))) :=
  (if_neg (not_not.mpr hlen)).mp ((if_neg (by simp [hkey])).mp (desEncCommand.2 s rd rs1))

theorem desDec_writes {s : State} {rd rs1 : BufReg} (hkey : s.dkv = true) (hlen : s.bufs[rs1].len = 8) :
    Writes (.desDec rd rs1) s rd (bytesOf (desKs s.dks.toList.reverse (bitsOf 64 s.bufs[rs1].bytes))) :=
  (if_neg (not_not.mpr hlen)).mp ((if_neg (by simp [hkey])).mp (desDecCommand.2 s rd rs1))

theorem dealEnc_writes {s : State} {rd rs1 : BufReg} (hkey : s.ekv = true) (hlen : s.bufs[rs1].len = 16) :
    Writes (.dealEnc rd rs1) s rd (bytesOf (dealBlock s.eks.toList (bitsOf 128 s.bufs[rs1].bytes))) :=
  (if_neg (not_not.mpr hlen)).mp ((if_neg (by simp [hkey])).mp (dealEncCommand.2 s rd rs1))

theorem dealDec_writes {s : State} {rd rs1 : BufReg} (hkey : s.ekv = true) (hlen : s.bufs[rs1].len = 16) :
    Writes (.dealDec rd rs1) s rd (bytesOf (dealBlock s.eks.toList.reverse (bitsOf 128 s.bufs[rs1].bytes))) :=
  (if_neg (not_not.mpr hlen)).mp ((if_neg (by simp [hkey])).mp (dealDecCommand.2 s rd rs1))

/-- Settles O50: DES_ENC leaves the key state and an 8-byte block, which DES_DEC decrypts with the same schedule. -/
theorem desDecUndoesDesEnc : Obligations.DesDecUndoesDesEnc := by
  intro s rd rs1 rd' hkey hlen
  refine exec_twice (desEnc_writes hkey hlen) fun t ht => ?_
  obtain ⟨hdkv, hdks, -⟩ := ht.keys
  have hdec := desDec_writes (rd := rd') (hdkv.trans hkey) (ht.len_eq.trans (by simp))
  rwa [hdks, ht.bitsOf_bytes rfl (by decide), desKs_reverse_desKs,
    bytesOf_bitsOf _ (by rw [Buf.length_bytes, hlen]; rfl)] at hdec

/-- Settles O58: DEAL_ENC leaves the key state and a 16-byte block, which DEAL_DEC decrypts with the same schedule. -/
theorem dealDecUndoesDealEnc : Obligations.DealDecUndoesDealEnc := by
  intro s rd rs1 rd' hkey hlen
  refine exec_twice (dealEnc_writes hkey hlen) fun t ht => ?_
  obtain ⟨-, -, hekv, heks⟩ := ht.keys
  have hdec := dealDec_writes (rd := rd') (hekv.trans hkey) (ht.len_eq.trans (by simp))
  rwa [heks, ht.bitsOf_bytes rfl (by decide), dealBlock_reverse_dealBlock,
    bytesOf_bitsOf _ (by rw [Buf.length_bytes, hlen]; rfl)] at hdec

end Sys2Proof.Machine
end
